-- ==== Sys2Proof/Word.lean ====
section
/-! DEFINITION. The word types of the CHIP-8 execution core (00_scope.md R7, R8): every quantity is an unsigned bit vector. -/

namespace Sys2Proof

/-- The addressable unit and the width of a general register (10_state.md R20, R31). -/
abbrev Byte := BitVec 8

/-- The width of `I`, `PC`, a stack entry and an instruction word (R22, R23, R26, R70). -/
abbrev Word := BitVec 16

/-- The address immediate `NNN` (30_encoding.md R71). -/
abbrev Addr12 := BitVec 12

/-- A register index `X` or `Y` (R71): every value names a register (R73). -/
abbrev RegIx := BitVec 4

/-- The count `N` of DRW, a key number or a hexadecimal digit. -/
abbrev Nibble := BitVec 4

/-- The flag register VF is `V[15]` (R21). -/
abbrev VF : RegIx := 0xF#4

end Sys2Proof
end

