-- ==== Sys2Proof/Syntax.lean ====
section
/-! DEFINITION. The instruction set: one constructor per row of the opcode map (30_encoding.md R76), with the operand fields of the row's format (R72). -/

namespace Sys2Proof

/-- The 34 instructions and the no-op descriptor (R76). Register indices are `x`, `y`; `nn`, `nnn`, `n` are the immediates of R71. -/
inductive Instr where
  /-- 0x00E0 -/
  | cls
  /-- 0x00EE -/
  | ret
  /-- 0x1NNN -/
  | jp (nnn : Addr12)
  /-- 0x2NNN -/
  | call (nnn : Addr12)
  /-- 0x3XNN -/
  | seImm (x : RegIx) (nn : Byte)
  /-- 0x4XNN -/
  | sneImm (x : RegIx) (nn : Byte)
  /-- 0x5XY0 -/
  | seReg (x y : RegIx)
  /-- 0x6XNN -/
  | ldImm (x : RegIx) (nn : Byte)
  /-- 0x7XNN -/
  | addImm (x : RegIx) (nn : Byte)
  /-- 0x8XY0 -/
  | ldReg (x y : RegIx)
  /-- 0x8XY1 -/
  | or (x y : RegIx)
  /-- 0x8XY2 -/
  | and (x y : RegIx)
  /-- 0x8XY3 -/
  | xor (x y : RegIx)
  /-- 0x8XY4 -/
  | addReg (x y : RegIx)
  /-- 0x8XY5 -/
  | sub (x y : RegIx)
  /-- 0x8XY6 -/
  | shr (x y : RegIx)
  /-- 0x8XY7 -/
  | subn (x y : RegIx)
  /-- 0x8XYE -/
  | shl (x y : RegIx)
  /-- 0x9XY0 -/
  | sneReg (x y : RegIx)
  /-- 0xANNN -/
  | ldI (nnn : Addr12)
  /-- 0xBNNN -/
  | jpV0 (nnn : Addr12)
  /-- 0xCXNN -/
  | rnd (x : RegIx) (nn : Byte)
  /-- 0xDXYN -/
  | drw (x y : RegIx) (n : Nibble)
  /-- 0xEX9E -/
  | skp (x : RegIx)
  /-- 0xEXA1 -/
  | sknp (x : RegIx)
  /-- 0xFX07 -/
  | ldVxDt (x : RegIx)
  /-- 0xFX0A -/
  | ldVxK (x : RegIx)
  /-- 0xFX15 -/
  | ldDtVx (x : RegIx)
  /-- 0xFX18 -/
  | ldStVx (x : RegIx)
  /-- 0xFX1E -/
  | addI (x : RegIx)
  /-- 0xFX29 -/
  | ldF (x : RegIx)
  /-- 0xFX33 -/
  | ldB (x : RegIx)
  /-- 0xFX55 -/
  | stBlock (x : RegIx)
  /-- 0xFX65 -/
  | ldBlock (x : RegIx)
  /-- Any other word (R77). The descriptor has no operand; it keeps the word it was decoded from, for the encoder only (log 8). -/
  | nop (w : Word)
deriving DecidableEq, Repr

end Sys2Proof
end

