-- ==== Sys2Proof/WellFormed.lean ====
section
/-! DEFINITION. Which instruction terms are well formed. Every operand field admits every value of its width (30_encoding.md R73), so the one check is that a no-op's word is unassigned (R77). -/

namespace Sys2Proof

/-- The assigned words, class by class, as the second column of R77's table lists them. -/
def assigned (w : Word) : Bool :=
  let low4 := w.extractLsb' 0 4
  let low8 := w.extractLsb' 0 8
  match w.extractLsb' 12 4 with
  | 0x0#4 => w == 0x00E0#16 || w == 0x00EE#16
  | 0x5#4 => low4 == 0x0#4
  | 0x8#4 => low4.toNat ≤ 7 || low4 == 0xE#4
  | 0x9#4 => low4 == 0x0#4
  | 0xE#4 => low8 == 0x9E#8 || low8 == 0xA1#8
  | 0xF#4 => [0x07#8, 0x0A#8, 0x15#8, 0x18#8, 0x1E#8, 0x29#8, 0x33#8, 0x55#8, 0x65#8].contains low8
  | _ => true

/-- The check on a no-op (R77): its word is none of the assigned ones. -/
def nopWordOk (w : Word) : Bool := !assigned w

/-- Well-formed instruction terms. -/
def Instr.wellFormed : Instr → Bool
  | .nop w => nopWordOk w
  | _ => true

end Sys2Proof
end

