-- ==== Sys2Proof/Decode.lean ====
section
/-! DEFINITION. The decoder (30_encoding.md R71, R74 to R77), total on any bytes, and the encoder. -/

namespace Sys2Proof

/-! ### Fields (R71) -/

def fieldX (w : Word) : RegIx := w.extractLsb' 8 4
def fieldY (w : Word) : RegIx := w.extractLsb' 4 4
def fieldN (w : Word) : Nibble := w.extractLsb' 0 4
def fieldNN (w : Word) : Byte := w.extractLsb' 0 8
def fieldNNN (w : Word) : Addr12 := w.extractLsb' 0 12

/-! ### The opcode map (R76) -/

/-- One row of R76: a word `w` is the row's instruction when `w &&& mask = bits`. -/
structure OpRow where
  mask : Word
  bits : Word
  build : Word → Instr

/-- Rows 1 to 9, and 20 to 23: classes 0x0 to 0x7 and 0xA to 0xD. -/
def rowsWide : List OpRow :=
  [ ⟨0xFFFF, 0x00E0, fun _ => .cls⟩,
    ⟨0xFFFF, 0x00EE, fun _ => .ret⟩,
    ⟨0xF000, 0x1000, fun w => .jp (fieldNNN w)⟩,
    ⟨0xF000, 0x2000, fun w => .call (fieldNNN w)⟩,
    ⟨0xF000, 0x3000, fun w => .seImm (fieldX w) (fieldNN w)⟩,
    ⟨0xF000, 0x4000, fun w => .sneImm (fieldX w) (fieldNN w)⟩,
    ⟨0xF00F, 0x5000, fun w => .seReg (fieldX w) (fieldY w)⟩,
    ⟨0xF000, 0x6000, fun w => .ldImm (fieldX w) (fieldNN w)⟩,
    ⟨0xF000, 0x7000, fun w => .addImm (fieldX w) (fieldNN w)⟩,
    ⟨0xF000, 0xA000, fun w => .ldI (fieldNNN w)⟩,
    ⟨0xF000, 0xB000, fun w => .jpV0 (fieldNNN w)⟩,
    ⟨0xF000, 0xC000, fun w => .rnd (fieldX w) (fieldNN w)⟩,
    ⟨0xF000, 0xD000, fun w => .drw (fieldX w) (fieldY w) (fieldN w)⟩ ]

/-- Rows 10 to 19: classes 0x8 and 0x9. -/
def rowsXY : List OpRow :=
  [ ⟨0xF00F, 0x8000, fun w => .ldReg (fieldX w) (fieldY w)⟩,
    ⟨0xF00F, 0x8001, fun w => .or (fieldX w) (fieldY w)⟩,
    ⟨0xF00F, 0x8002, fun w => .and (fieldX w) (fieldY w)⟩,
    ⟨0xF00F, 0x8003, fun w => .xor (fieldX w) (fieldY w)⟩,
    ⟨0xF00F, 0x8004, fun w => .addReg (fieldX w) (fieldY w)⟩,
    ⟨0xF00F, 0x8005, fun w => .sub (fieldX w) (fieldY w)⟩,
    ⟨0xF00F, 0x8006, fun w => .shr (fieldX w) (fieldY w)⟩,
    ⟨0xF00F, 0x8007, fun w => .subn (fieldX w) (fieldY w)⟩,
    ⟨0xF00F, 0x800E, fun w => .shl (fieldX w) (fieldY w)⟩,
    ⟨0xF00F, 0x9000, fun w => .sneReg (fieldX w) (fieldY w)⟩ ]

/-- Rows 24 to 34: classes 0xE and 0xF. -/
def rowsX : List OpRow :=
  [ ⟨0xF0FF, 0xE09E, fun w => .skp (fieldX w)⟩,
    ⟨0xF0FF, 0xE0A1, fun w => .sknp (fieldX w)⟩,
    ⟨0xF0FF, 0xF007, fun w => .ldVxDt (fieldX w)⟩,
    ⟨0xF0FF, 0xF00A, fun w => .ldVxK (fieldX w)⟩,
    ⟨0xF0FF, 0xF015, fun w => .ldDtVx (fieldX w)⟩,
    ⟨0xF0FF, 0xF018, fun w => .ldStVx (fieldX w)⟩,
    ⟨0xF0FF, 0xF01E, fun w => .addI (fieldX w)⟩,
    ⟨0xF0FF, 0xF029, fun w => .ldF (fieldX w)⟩,
    ⟨0xF0FF, 0xF033, fun w => .ldB (fieldX w)⟩,
    ⟨0xF0FF, 0xF055, fun w => .stBlock (fieldX w)⟩,
    ⟨0xF0FF, 0xF065, fun w => .ldBlock (fieldX w)⟩ ]

/-- The 34 rows of R76 with literal bits; they are pairwise disjoint (R75), so their order is free. -/
def opRows : List OpRow := rowsWide ++ rowsXY ++ rowsX

/-- Whether a word is in a row (R75). -/
def OpRow.matches (r : OpRow) (w : Word) : Bool := w &&& r.mask == r.bits

/-- The Decoder (R74, R75): never fails; a word in no row is a no-op (R77). -/
def decodeWord (w : Word) : Instr :=
  match opRows.find? (fun r => r.matches w) with
  | some r => r.build w
  | none => .nop w

/-! ### Bytes -/

/-- The instruction word of two consecutive bytes, the lower address first (20_memory.md R50). -/
def wordOfBytes (hi lo : Byte) : Word := hi ++ lo

/-- The two bytes of a word, in memory order (R50). -/
def bytesOfWord (w : Word) : List Byte := [w.extractLsb' 8 8, w.extractLsb' 0 8]

/-- Why bytes are no instruction. No word is (R78 (a)); fewer than two bytes are not a word. -/
inductive DecodeError where
  /-- fewer than two bytes are left -/
  | truncated
deriving DecidableEq, Repr

/-- Decodes the first instruction of a list of bytes and gives the bytes after it (R70). -/
def decode : List Byte → Except DecodeError (Instr × List Byte)
  | hi :: lo :: rest => .ok (decodeWord (wordOfBytes hi lo), rest)
  | _ => .error .truncated

/-! ### The encoder -/

/-- Format `NNN` of R72. -/
def formatNNN (c : Nibble) (nnn : Addr12) : Word := c ++ nnn
/-- Format `XNN` of R72. -/
def formatXNN (c : Nibble) (x : RegIx) (nn : Byte) : Word := c ++ x ++ nn
/-- Formats `XY` and `XYN` of R72. -/
def formatXYN (c : Nibble) (x y : RegIx) (n : Nibble) : Word := c ++ x ++ y ++ n

/-- The word of an instruction, written from the patterns of R72 and R76. -/
def encode : Instr → Word
  | .cls => 0x00E0
  | .ret => 0x00EE
  | .jp nnn => formatNNN 0x1 nnn
  | .call nnn => formatNNN 0x2 nnn
  | .seImm x nn => formatXNN 0x3 x nn
  | .sneImm x nn => formatXNN 0x4 x nn
  | .seReg x y => formatXYN 0x5 x y 0x0
  | .ldImm x nn => formatXNN 0x6 x nn
  | .addImm x nn => formatXNN 0x7 x nn
  | .ldReg x y => formatXYN 0x8 x y 0x0
  | .or x y => formatXYN 0x8 x y 0x1
  | .and x y => formatXYN 0x8 x y 0x2
  | .xor x y => formatXYN 0x8 x y 0x3
  | .addReg x y => formatXYN 0x8 x y 0x4
  | .sub x y => formatXYN 0x8 x y 0x5
  | .shr x y => formatXYN 0x8 x y 0x6
  | .subn x y => formatXYN 0x8 x y 0x7
  | .shl x y => formatXYN 0x8 x y 0xE
  | .sneReg x y => formatXYN 0x9 x y 0x0
  | .ldI nnn => formatNNN 0xA nnn
  | .jpV0 nnn => formatNNN 0xB nnn
  | .rnd x nn => formatXNN 0xC x nn
  | .drw x y n => formatXYN 0xD x y n
  | .skp x => formatXNN 0xE x 0x9E
  | .sknp x => formatXNN 0xE x 0xA1
  | .ldVxDt x => formatXNN 0xF x 0x07
  | .ldVxK x => formatXNN 0xF x 0x0A
  | .ldDtVx x => formatXNN 0xF x 0x15
  | .ldStVx x => formatXNN 0xF x 0x18
  | .addI x => formatXNN 0xF x 0x1E
  | .ldF x => formatXNN 0xF x 0x29
  | .ldB x => formatXNN 0xF x 0x33
  | .stBlock x => formatXNN 0xF x 0x55
  | .ldBlock x => formatXNN 0xF x 0x65
  | .nop w => w

/-- The bytes of an instruction, in memory order. -/
def encodeBytes (i : Instr) : List Byte := bytesOfWord (encode i)

/-! ### The opcode table's numbering -/

/-- The first word of an instruction whose bits are `w`; the bits above `nbits` are 0. -/
def tableWord (nbits w : Nat) : Word := BitVec.ofNat 16 (w % 2 ^ nbits)

/-- What `decode` reads from an instruction given in the numbering of spec/opcode_table.json. -/
def decodeTableWord (nbits w : Nat) : Option Instr :=
  match decode (bytesOfWord (tableWord nbits w)) with
  | .ok (i, _) => some i
  | .error _ => none

end Sys2Proof
end

