-- ==== Sys2Proof/Config.lean ====
section
/-! DEFINITION. What is fixed for the machine (00_scope.md R6), the configuration strap's type, the port answers, and the free values. -/

namespace Sys2Proof

/-- `SHIFT_SRC` (00_scope.md R6, 92_eei_decisions.md D12, OPEN): which register SHR and SHL read. The value a machine has is held in `State.shiftSrc`, so that a claim over all states covers both (log 5). -/
inductive ShiftSrc where
  | vx
  | vy
deriving DecidableEq, Repr, Inhabited

/-- What the collaborators answer during one `InsnStep` (10_state.md R39, R40): bit `K` of `keyDown` is 1 when key `K` is pressed; `keyEvent` is the key just pressed, if any; `randByte` is the random byte. -/
structure Ports where
  keyDown  : BitVec 16
  keyEvent : Option Nibble
  randByte : Byte
deriving DecidableEq, Repr, Inhabited

namespace Config

/-- `MEM_SIZE`. -/
@[simp] abbrev memSize : Nat := 4096
/-- `FONT_BASE`. -/
@[simp] abbrev fontBase : Nat := 0x000
/-- `FONT_SIZE`. -/
@[simp] abbrev fontSize : Nat := 80
/-- `GLYPH_STRIDE`. -/
@[simp] abbrev glyphStride : Nat := 5
/-- `PROG_BASE`: where the program starts, and the reset value of `PC`. -/
@[simp] abbrev progBase : Nat := 0x200
/-- `ROM_MAX`. -/
@[simp] abbrev romMax : Nat := 3584
/-- `NUM_V`: the general registers. -/
@[simp] abbrev numV : Nat := 16
/-- `V_WIDTH`: the bits of a general register. -/
@[simp] abbrev vWidth : Nat := 8
/-- `I_WIDTH`: the bits of the address register. -/
@[simp] abbrev iWidth : Nat := 16
/-- `PC_WIDTH`: the bits of the program counter. -/
@[simp] abbrev pcWidth : Nat := 16
/-- `STACK_DEPTH` (92_eei_decisions.md D20). -/
@[simp] abbrev stackDepth : Nat := 16
/-- `FB_W`: the columns of the framebuffer. -/
@[simp] abbrev fbW : Nat := 64
/-- `FB_H`: the rows of the framebuffer. -/
@[simp] abbrev fbH : Nat := 32
/-- `TIMER_HZ`: the rate of the timer cadence. Information only: the model has no time (R204; log 20), so nothing reads it. -/
abbrev timerHz : Nat := 60
/-- `INSN_HZ`: the nominal rate of the instruction cadence. "Timing only, no rule depends on it" (log 20), so nothing reads it. -/
abbrev insnHz : Nat := 700

/-- `FONT` (10_state.md R35, D22): the spec's default bytes, glyph 0 to glyph F, five bytes each. No instruction's rule depends on them (log 6). -/
def font : List Byte :=
  [0xF0, 0x90, 0x90, 0x90, 0xF0,  0x20, 0x60, 0x20, 0x20, 0x70,
   0xF0, 0x10, 0xF0, 0x80, 0xF0,  0xF0, 0x10, 0xF0, 0x10, 0xF0]
  ++ [0x90, 0x90, 0xF0, 0x10, 0x10,  0xF0, 0x80, 0xF0, 0x10, 0xF0,
      0xF0, 0x80, 0xF0, 0x90, 0xF0,  0xF0, 0x10, 0x20, 0x40, 0x40]
  ++ [0xF0, 0x90, 0xF0, 0x90, 0xF0,  0xF0, 0x90, 0xF0, 0x10, 0xF0,
      0xF0, 0x90, 0xF0, 0x90, 0x90,  0xE0, 0x90, 0xE0, 0x90, 0xE0]
  ++ [0xF0, 0x80, 0x80, 0x80, 0xF0,  0xE0, 0x90, 0x90, 0x90, 0xE0,
      0xF0, 0x80, 0xF0, 0x80, 0xF0,  0xF0, 0x80, 0xF0, 0x80, 0x80]

/-- FREE VALUE (R39, R40, D18; U10, U11): what the ports answer at the `n`-th `InsnStep` whose answers the event list does not give. Nothing is known of it (log 3). -/
opaque freePorts : Nat → Ports

end Config

end Sys2Proof
end

