-- ==== Sys2Proof/Machine/State.lean ====
section
/-! DEFINITION. The state of the block (10_state.md R20 to R33), the model's own fields for the environment, why a step stops, and the state after reset (70_reset_and_hazards.md R190). -/

namespace Sys2Proof.Machine

/-- The fault kinds (60_exceptions.md R161). -/
inductive FaultKind where
  /-- no fault -/
  | none
  /-- a memory address outside 0 to 4095 -/
  | memRange
  /-- CALL with a full stack -/
  | stackOverflow
  /-- RET with an empty stack -/
  | stackUnderflow
  /-- a coordinate outside the grid: has a code, raised by nothing (43_display.md R143) -/
  | fbRange
deriving DecidableEq, Repr, Inhabited

/-- The fault codes of R161, in the 3 bits of `FAULT.kind` (R30). -/
def FaultKind.code : FaultKind → BitVec 3
  | .none => 0
  | .memRange => 1
  | .stackOverflow => 2
  | .stackUnderflow => 3
  | .fbRange => 4

/-- The fault record `FAULT` (R30). A field with a valid bit is an Option: `none` when the bit is 0 (log 7). -/
structure FaultRecord where
  kind   : FaultKind
  pc     : Word
  opcode : Option Word
  addr   : Option Word
deriving DecidableEq, Repr

/-- No fault recorded: the reset value of `FAULT` (R30, R190; `pc` log 7). -/
def FaultRecord.clear : FaultRecord := { kind := .none, pc := 0, opcode := Option.none, addr := Option.none }

/-- `MEM` (R31) as a list of cells over the reset contents, in the canonical form of `Memory.wf`. -/
abbrev Memory := List Host.Cell

/-- `FB` (R33): 32 rows of 64 one-bit pixels; row 0 first, column 0 first in a row. -/
abbrev FrameBuffer := Vector (Vector Bool Config.fbW) Config.fbH

/-- Every pixel 0 (R33). -/
def FrameBuffer.clear : FrameBuffer := Vector.replicate Config.fbH (Vector.replicate Config.fbW false)

/-- One event of the environment (00_scope.md R13, 10_state.md R38, 70_reset_and_hazards.md R205). -/
inductive Event where
  /-- one firing of the instruction cadence, with what the ports answer in it (R160) -/
  | insn (ports : Ports)
  /-- one firing of the display/timer cadence (R157) -/
  | tick
  /-- reset, then load of the program image (R190, R193) -/
  | reset (rom : List Byte)
deriving DecidableEq, Repr

/-- The MODEL's own fields: what the environment presents to the block and what the block has shown to it (log 2, 3, 4, 12). -/
structure Env where
  /-- the events still to come, oldest first; when the list is empty the next event is an `InsnStep` with free port answers -/
  events : List Event
  /-- the port answers of the current `InsnStep` -/
  ports  : Ports
  /-- how many free port answers have been taken -/
  draws  : Nat
  /-- the `Flush` outputs, newest first (R41) -/
  frames : List FrameBuffer
deriving DecidableEq, Repr

/-- The state of the block. -/
structure State where
  /-- `V[0]` to `V[15]` (R20); VF is `V[15]` (R21) -/
  v        : Vector (BitVec Config.vWidth) Config.numV
  /-- the address register (R22) -/
  i        : BitVec Config.iWidth
  /-- the program counter (R23) -/
  pc       : BitVec Config.pcWidth
  /-- the depth of the call stack, 0 to 16 (R25; log 13) -/
  sp       : Fin (Config.stackDepth + 1)
  /-- the call stack; the valid entries are those below `sp` (R26) -/
  stack    : Vector Word Config.stackDepth
  /-- the delay timer (R27) -/
  dt       : Byte
  /-- the sound timer (R28) -/
  st       : Byte
  /-- awaiting a key (R29) -/
  wait     : Bool
  /-- the fault record (R30) -/
  fault    : FaultRecord
  /-- memory (R31) -/
  mem      : Memory
  /-- the framebuffer (R33) -/
  fb       : FrameBuffer
  /-- the configuration strap `SHIFT_SRC` (00_scope.md R6; log 5) -/
  shiftSrc : ShiftSrc
  /-- the model's own fields -/
  env      : Env
deriving DecidableEq, Repr

/-- Host faults: there are none. A fatal fault of the block is a NEXT state, in which `FAULT` is written and which nothing but reset leaves (R165, R166; log 1). Safe: a claim sees the faulted state itself. -/
inductive Fault where
deriving DecidableEq, Repr

/-- Why the model gives no next state. -/
inductive Refusal where
  /-- raised by an arm of `exec` for an instruction that has no meaning yet; no arm is left so. Safe. -/
  | notModelled (mnemonic : String)
  /-- raised by the reset-and-load event when the image has more than 3584 bytes: "refuse (the block does not start; no state is a run state)" (R193, R170; log 11). Safe. -/
  | romTooLarge (size : Nat)
deriving DecidableEq, Repr

/-- The model's own fields at reset: no event given, no port answer, nothing flushed (DESIGN CHOICE, log 4). -/
def Env.initial : Env :=
  { events := [], ports := { keyDown := 0, keyEvent := none, randByte := 0 }, draws := 0, frames := [] }

/-- The block right after reset, before any load (R190): memory lists nothing, so it holds its reset contents. -/
def State.reset : State :=
  { v := Vector.replicate Config.numV 0
    i := 0
    pc := BitVec.ofNat Config.pcWidth Config.progBase
    sp := 0
    stack := Vector.replicate Config.stackDepth 0
    dt := 0
    st := 0
    wait := false
    fault := FaultRecord.clear
    mem := []
    fb := FrameBuffer.clear
    shiftSrc := .vx
    env := Env.initial }

end Sys2Proof.Machine
end

