-- ==== Sys2Proof/Machine/Ops.lean ====
section
/-! DEFINITION. The operations the meanings share: memory (20_memory.md), registers, the call stack, `PC`, and taking a fatal fault (60_exceptions.md R165). -/

namespace Sys2Proof.Machine

/-! ### Memory (R31, R53 to R56) -/

/-- What a byte that nothing has written holds: the font at `FONT_BASE`, 0x00 elsewhere (R31, R35, R190). -/
def Memory.initByte (a : Nat) : Byte :=
  if Config.fontBase ≤ a ∧ a < Config.fontBase + Config.fontSize then Config.font.getD (a - Config.fontBase) 0 else 0

/-- The byte at address `a` (R9, `MemRead(a, 1)` after its range check). -/
def Memory.read : Memory → Nat → Byte
  | [], a => Memory.initByte a
  | (b, w) :: rest, a => if b = a then w else Memory.read rest a

/-- Forgets what was written at `a`. -/
def Memory.erase (m : Memory) (a : Nat) : Memory := m.filter (fun c => c.1 != a)

/-- Lists the cell `(a, v)` before the first higher address. -/
def Memory.insert : Memory → Nat → Byte → Memory
  | [], a, v => [(a, v)]
  | (b, w) :: rest, a, v => if a < b then (a, v) :: (b, w) :: rest else (b, w) :: Memory.insert rest a v

/-- Stores the byte `v` at address `a` (R9, `MemWrite(a, 1, v)` after its range check), in canonical form: a byte equal to the reset content is not listed. -/
def Memory.write (m : Memory) (a : Nat) (v : Byte) : Memory :=
  if v = Memory.initByte a then m.erase a else (m.erase a).insert a v

/-- The canonical form: addresses exist (R56) and rise strictly from `lo` on, and no cell holds the reset content. -/
def Memory.wfFrom : Nat → Memory → Bool
  | _, [] => true
  | lo, (a, v) :: rest => decide (lo ≤ a) && decide (a < Config.memSize) && v != Memory.initByte a && Memory.wfFrom (a + 1) rest

/-- The canonical form of memory. -/
def Memory.wf (m : Memory) : Bool := Memory.wfFrom 0 m

/-- The `n` bytes from `base` on, in ascending order (R55). -/
def Memory.readBlock (m : Memory) (base n : Nat) : List Byte := (List.range n).map (fun k => m.read (base + k))

/-- Stores bytes at ascending addresses from `base` on (R55). -/
def Memory.writeBlock : Memory → Nat → List Byte → Memory
  | m, _, [] => m
  | m, base, b :: bs => Memory.writeBlock (m.write base b) (base + 1) bs

/-- The range check of an access to `n` bytes from `base` on (R53, R54, R162): the lowest address above 4095, if the access has one. Addresses are naturals and never wrap. -/
def rangeFault (base n : Nat) : Option Word :=
  if 0 < n ∧ base + n - 1 > Config.memSize - 1 then some (BitVec.ofNat 16 (max base Config.memSize)) else none

/-! ### Registers (R20, R22, R23) -/

/-- `V[x]`. -/
def State.readV (s : State) (x : RegIx) : Byte := s.v[x.toNat]'(x.isLt)

/-- `V[x] <- b`. -/
def State.writeV (s : State) (x : RegIx) (b : Byte) : State := { s with v := s.v.set x.toNat b x.isLt }

/-- A register file with `bytes` in the registers from number `k` on, in ascending order (42_index_memory.md R135). -/
def loadFrom : Vector Byte Config.numV → Nat → List Byte → Vector Byte Config.numV
  | v, _, [] => v
  | v, k, b :: bs => loadFrom (v.setIfInBounds k b) (k + 1) bs

/-- `I <- a`. -/
def State.setI (s : State) (a : Word) : State := { s with i := a }

/-- `PC <- target`. -/
def State.setPc (s : State) (target : Word) : State := { s with pc := target }

/-- `PC <- PC + n`: 2 for the default advance, 4 for a taken skip (R23). -/
def State.advance (s : State) (n : Word) : State := { s with pc := s.pc + n }

/-- The skip policy (R94 to R97, R150, R151): 4 when the condition holds, else 2. -/
def State.skipIf (s : State) (c : Bool) : State := s.advance (if c then 4 else 2)

/-! ### The call stack (R25, R26) -/

/-- Pushes a return address; nothing when the stack is full (40_flow.md R93). -/
def State.push (s : State) (a : Word) : Option State :=
  if h : s.sp.val < Config.stackDepth then
    some { s with stack := s.stack.set s.sp.val a h, sp := ⟨s.sp.val + 1, Nat.succ_lt_succ h⟩ }
  else none

/-- Pops the top return address, leaving its bits in the stack; nothing when the stack is empty (R91, R26). -/
def State.pop (s : State) : Option (Word × State) :=
  if h : 0 < s.sp.val then
    some (s.stack[s.sp.val - 1]'(by omega), { s with sp := ⟨s.sp.val - 1, by omega⟩ })
  else none

/-! ### Fatal faults (R160 to R168) -/

/-- While `FAULT.kind` is not `NONE` the block is halted (R166). -/
def State.halted (s : State) : Bool := s.fault.kind != FaultKind.none

/-- TAKING A FAULT (R165): `FAULT` records the kind, the address of the faulting instruction, its word if the fetch succeeded and the faulting address for `MemRange`; nothing else is written. There is no return from it (R167). -/
def State.raise (s : State) (kind : FaultKind) (opcode addr : Option Word) : State :=
  { s with fault := { kind := kind, pc := s.pc, opcode := opcode, addr := addr } }

/-- The next state of instruction `j`, which accesses the `n` bytes from `I` on: `MemRange` if one of them does not exist, else `done` (R53, R136, R162). All checks come before any write (R164). -/
def State.checked (s : State) (j : Instr) (n : Nat) (done : State) : State :=
  match rangeFault s.i.toNat n with
  | some a => s.raise .memRange (some (encode j)) (some a)
  | none => done

/-! ### Output ports (R42, R43) -/

/-- `sound_on`. -/
def State.soundOn (s : State) : Bool := s.st != 0

/-- `awaiting_key`. -/
def State.awaitingKey (s : State) : Bool := s.wait

end Sys2Proof.Machine
end

