-- ==== Sys2Proof/Machine/Flags.lean ====
section
/-! DEFINITION. The results and the VF values of the flag-writing operations (10_state.md R21; 41_alu.md R116 to R121). Each gives the pair (result, flag). -/

namespace Sys2Proof.Machine

/-- VF as 0x00 or 0x01. -/
def flagByte (c : Bool) : Byte := if c then 1 else 0

/-- ADD_reg (R116): the 9-bit sum; its low 8 bits and its bit 8. -/
def addWithCarry (a b : Byte) : Byte × Byte :=
  let sum : BitVec 9 := a.zeroExtend 9 + b.zeroExtend 9
  (sum.extractLsb' 0 8, (sum.extractLsb' 8 1).zeroExtend 8)

/-- SUB (R117) and, with the operands exchanged, SUBN (R119): `(a + 256 - b) mod 256`, and 1 when no borrow is needed. -/
def subNoBorrow (a b : Byte) : Byte × Byte :=
  (BitVec.ofNat 8 ((a.toNat + 256 - b.toNat) % 256), flagByte (decide (a.toNat ≥ b.toNat)))

/-- SHR (R118): one place right, and the bit shifted out, bit 0. -/
def shiftRight (b : Byte) : Byte × Byte := (b >>> 1, flagByte (b.getLsbD 0))

/-- SHL (R120): one place left, and the bit shifted out, bit 7. -/
def shiftLeft (b : Byte) : Byte × Byte := (b <<< 1, flagByte (b.getLsbD 7))

/-- Writes the result to `V[x]` and then the flag to VF: with `x = F` the flag wins (R10, R121). -/
def State.writeWithFlag (s : State) (x : RegIx) (r : Byte × Byte) : State := (s.writeV x r.1).writeV VF r.2

end Sys2Proof.Machine
end

