-- ==== Sys2Proof/Machine/Operands.lean ====
section
/-! DEFINITION. How operands are read: immediates and digits (30_encoding.md R73), the shift source, glyphs, decimal digits, keys. -/

namespace Sys2Proof.Machine

/-- `zext_16(NNN)` (R73). -/
def zextAddr (nnn : Addr12) : Word := nnn.zeroExtend 16

/-- `zext_16` of a register's byte. -/
def zextByte (b : Byte) : Word := b.zeroExtend 16

/-- The low 4 bits of a register, where it names a key or a digit (R132, R150; D15, D16). -/
def lowNibble (b : Byte) : Nibble := b.extractLsb' 0 4

/-- The register that a shift reads (41_alu.md R118, R120; D12). -/
def State.shiftSource (s : State) (x y : RegIx) : Byte :=
  match s.shiftSrc with
  | .vx => s.readV x
  | .vy => s.readV y

/-- `FONT_BASE + GLYPH_STRIDE * d` (42_index_memory.md R132). -/
def glyphAddress (d : Nibble) : Word := BitVec.ofNat 16 (Config.fontBase + Config.glyphStride * d.toNat)

/-- The three decimal digits of a byte: hundreds, tens, ones (R133; D24). -/
def bcdDigits (b : Byte) : List Byte :=
  [ BitVec.ofNat 8 (b.toNat / 100), BitVec.ofNat 8 (b.toNat / 10 % 10), BitVec.ofNat 8 (b.toNat % 10) ]

/-- `V[0]` to `V[x]`, in ascending order (R134). -/
def State.regsUpTo (s : State) (x : RegIx) : List Byte := s.v.toList.take (x.toNat + 1)

/-- `key_down[k]` (10_state.md R39), as the ports answer in this step. -/
def State.keyDown (s : State) (k : Nibble) : Bool := s.env.ports.keyDown.getLsbD k.toNat

/-- `key_event` (R39): the key just pressed, if any. -/
def State.keyEvent (s : State) : Option Nibble := s.env.ports.keyEvent

/-- `rand_byte` (R40). -/
def State.randByte (s : State) : Byte := s.env.ports.randByte

end Sys2Proof.Machine
end

