-- ==== Sys2Proof/Machine/Alu.lean ====
section
/-! DEFINITION. Register load, arithmetic, logic, shift and random (41_alu.md R110 to R122). Every one advances `PC` by 2 and raises nothing. -/

namespace Sys2Proof.Machine

/-- LD_imm (R110). -/
def execLdImm (x : RegIx) (nn : Byte) (s : State) : Host.Outcome State Fault Refusal :=
  .next ((s.writeV x nn).advance 2)

/-- ADD_imm (R111): modulo 256, no flag. -/
def execAddImm (x : RegIx) (nn : Byte) (s : State) : Host.Outcome State Fault Refusal :=
  .next ((s.writeV x (s.readV x + nn)).advance 2)

/-- LD_reg (R112). -/
def execLdReg (x y : RegIx) (s : State) : Host.Outcome State Fault Refusal :=
  .next ((s.writeV x (s.readV y)).advance 2)

/-- OR (R113); VF is no flag here (D11). -/
def execOr (x y : RegIx) (s : State) : Host.Outcome State Fault Refusal :=
  .next ((s.writeV x (s.readV x ||| s.readV y)).advance 2)

/-- AND (R114). -/
def execAnd (x y : RegIx) (s : State) : Host.Outcome State Fault Refusal :=
  .next ((s.writeV x (s.readV x &&& s.readV y)).advance 2)

/-- XOR (R115). -/
def execXor (x y : RegIx) (s : State) : Host.Outcome State Fault Refusal :=
  .next ((s.writeV x (s.readV x ^^^ s.readV y)).advance 2)

/-- ADD_reg (R116). -/
def execAddReg (x y : RegIx) (s : State) : Host.Outcome State Fault Refusal :=
  .next ((s.writeWithFlag x (addWithCarry (s.readV x) (s.readV y))).advance 2)

/-- SUB (R117). -/
def execSub (x y : RegIx) (s : State) : Host.Outcome State Fault Refusal :=
  .next ((s.writeWithFlag x (subNoBorrow (s.readV x) (s.readV y))).advance 2)

/-- SHR (R118). -/
def execShr (x y : RegIx) (s : State) : Host.Outcome State Fault Refusal :=
  .next ((s.writeWithFlag x (shiftRight (s.shiftSource x y))).advance 2)

/-- SUBN (R119): SUB with the operands exchanged (D13). -/
def execSubn (x y : RegIx) (s : State) : Host.Outcome State Fault Refusal :=
  .next ((s.writeWithFlag x (subNoBorrow (s.readV y) (s.readV x))).advance 2)

/-- SHL (R120). -/
def execShl (x y : RegIx) (s : State) : Host.Outcome State Fault Refusal :=
  .next ((s.writeWithFlag x (shiftLeft (s.shiftSource x y))).advance 2)

/-- RND (R122): the random byte is the port's answer in this step, a free input (D18). -/
def execRnd (x : RegIx) (nn : Byte) (s : State) : Host.Outcome State Fault Refusal :=
  .next ((s.writeV x (s.randByte &&& nn)).advance 2)

end Sys2Proof.Machine
end

