-- ==== Sys2Proof/Machine/Framebuffer.lean ====
section
/-! DEFINITION. The framebuffer's pixels and the sprite plot (10_state.md R33; 43_display.md R141). -/

namespace Sys2Proof.Machine

/-- `FB[y][x]`. -/
def FrameBuffer.pixel (fb : FrameBuffer) (y : Fin Config.fbH) (x : Fin Config.fbW) : Bool := (fb[y.val]'y.isLt)[x.val]'x.isLt

/-- `FB[y][x] <- FB[y][x] ^ 1`. -/
def FrameBuffer.flip (fb : FrameBuffer) (y : Fin Config.fbH) (x : Fin Config.fbW) : FrameBuffer :=
  fb.set y.val ((fb[y.val]'y.isLt).set x.val (!fb.pixel y x) x.isLt) y.isLt

/-- A column, reduced modulo 64 (R33, R141 (c)). -/
def column (n : Nat) : Fin Config.fbW := ⟨n % Config.fbW, Nat.mod_lt n (by decide)⟩

/-- A row, reduced modulo 32. -/
def row (n : Nat) : Fin Config.fbH := ⟨n % Config.fbH, Nat.mod_lt n (by decide)⟩

/-- The framebuffer and `hit` while a sprite is drawn. -/
abbrev Plot := FrameBuffer × Bool

/-- Plots one 1 bit of the sprite at column `x`, row `y` (R141). -/
def plotPixel (p : Plot) (x y : Nat) : Plot :=
  (p.1.flip (row y) (column x), p.2 || p.1.pixel (row y) (column x))

/-- Plots one sprite row, column 0 to column 7; bit 7 is the leftmost pixel (D23). A 0 bit plots nothing. -/
def plotRow (p : Plot) (b : Byte) (x0 y : Nat) : Plot :=
  [0, 1, 2, 3, 4, 5, 6, 7].foldl (fun q c => if b.getLsbD (7 - c) then plotPixel q (x0 + c) y else q) p

/-- Plots the sprite rows `bytes` downward from row `y` (R141). -/
def plotRows : Plot → List Byte → Nat → Nat → Plot
  | p, [], _, _ => p
  | p, b :: bs, x0, y => plotRows (plotRow p b x0 y) bs x0 (y + 1)

/-- Draws a sprite at column `x0`, row `y0`: the framebuffer after it, and whether a pixel was turned off. -/
def drawSprite (fb : FrameBuffer) (bytes : List Byte) (x0 y0 : Byte) : Plot :=
  plotRows (fb, false) bytes x0.toNat y0.toNat

end Sys2Proof.Machine
end

