-- ==== Sys2Proof/Machine/Display.lean ====
section
/-! DEFINITION. The framebuffer instructions (43_display.md R140, R141). -/

namespace Sys2Proof.Machine

/-- CLS (R140). -/
def execCls (s : State) : Host.Outcome State Fault Refusal :=
  .next (State.advance { s with fb := FrameBuffer.clear } 2)

/-- DRW (R141): the coordinates and the sprite are read first, VF is written last (R121). -/
def execDrw (x y : RegIx) (n : Nibble) (s : State) : Host.Outcome State Fault Refusal :=
  let p := drawSprite s.fb (s.mem.readBlock s.i.toNat n.toNat) (s.readV x) (s.readV y)
  .next (s.checked (.drw x y n) n.toNat ((State.writeV { s with fb := p.1 } VF (flagByte p.2)).advance 2))

end Sys2Proof.Machine
end

