-- ==== Sys2Proof/Machine/Flow.lean ====
section
/-! DEFINITION. Control flow (40_flow.md R90 to R98). -/

namespace Sys2Proof.Machine

/-- NOP (R90): only `PC` advances; the word is ignored. -/
def execNop (_w : Word) (s : State) : Host.Outcome State Fault Refusal := .next (s.advance 2)

/-- RET (R91): the popped address is the next `PC`; `StackUnderflow` on an empty stack (R163). -/
def execRet (s : State) : Host.Outcome State Fault Refusal :=
  .next (match s.pop with
    | some (a, t) => t.setPc a
    | none => s.raise .stackUnderflow (some (encode .ret)) none)

/-- JP (R92). -/
def execJp (nnn : Addr12) (s : State) : Host.Outcome State Fault Refusal := .next (s.setPc (zextAddr nnn))

/-- CALL (R93): pushes `PC + 2`; `StackOverflow` on a full stack (R163). -/
def execCall (nnn : Addr12) (s : State) : Host.Outcome State Fault Refusal :=
  .next (match s.push (s.pc + 2) with
    | some t => t.setPc (zextAddr nnn)
    | none => s.raise .stackOverflow (some (encode (.call nnn))) none)

/-- SE_imm (R94). -/
def execSeImm (x : RegIx) (nn : Byte) (s : State) : Host.Outcome State Fault Refusal :=
  .next (s.skipIf (s.readV x == nn))

/-- SNE_imm (R95). -/
def execSneImm (x : RegIx) (nn : Byte) (s : State) : Host.Outcome State Fault Refusal :=
  .next (s.skipIf (s.readV x != nn))

/-- SE_reg (R96). -/
def execSeReg (x y : RegIx) (s : State) : Host.Outcome State Fault Refusal :=
  .next (s.skipIf (s.readV x == s.readV y))

/-- SNE_reg (R97). -/
def execSneReg (x y : RegIx) (s : State) : Host.Outcome State Fault Refusal :=
  .next (s.skipIf (s.readV x != s.readV y))

/-- JP_V0 (R98): the register is always `V[0]`; the sum is not reduced modulo 4096. -/
def execJpV0 (nnn : Addr12) (s : State) : Host.Outcome State Fault Refusal :=
  .next (s.setPc (zextAddr nnn + zextByte (s.readV 0)))

end Sys2Proof.Machine
end

