-- ==== Sys2Proof/Machine/Index.lean ====
section
/-! DEFINITION. The address register and the memory instructions (42_index_memory.md R130 to R135). Every one advances `PC` by 2 unless it faults; none changes `I` by an access (R136). -/

namespace Sys2Proof.Machine

/-- LD_I (R130). -/
def execLdI (nnn : Addr12) (s : State) : Host.Outcome State Fault Refusal :=
  .next ((s.setI (zextAddr nnn)).advance 2)

/-- ADD_I (R131): modulo 65536, no flag. -/
def execAddI (x : RegIx) (s : State) : Host.Outcome State Fault Refusal :=
  .next ((s.setI (s.i + zextByte (s.readV x))).advance 2)

/-- LD_F (R132). -/
def execLdF (x : RegIx) (s : State) : Host.Outcome State Fault Refusal :=
  .next ((s.setI (glyphAddress (lowNibble (s.readV x)))).advance 2)

/-- LD_B (R133). -/
def execLdB (x : RegIx) (s : State) : Host.Outcome State Fault Refusal :=
  .next (s.checked (.ldB x) 3 (State.advance { s with mem := s.mem.writeBlock s.i.toNat (bcdDigits (s.readV x)) } 2))

/-- ST_block (R134). -/
def execStBlock (x : RegIx) (s : State) : Host.Outcome State Fault Refusal :=
  .next (s.checked (.stBlock x) (x.toNat + 1)
    (State.advance { s with mem := s.mem.writeBlock s.i.toNat (s.regsUpTo x) } 2))

/-- LD_block (R135). -/
def execLdBlock (x : RegIx) (s : State) : Host.Outcome State Fault Refusal :=
  .next (s.checked (.ldBlock x) (x.toNat + 1)
    (State.advance { s with v := loadFrom s.v 0 (s.mem.readBlock s.i.toNat (x.toNat + 1)) } 2))

end Sys2Proof.Machine
end

