-- ==== Sys2Proof/Machine/Keys.lean ====
section
/-! DEFINITION. Key and timer instructions (44_keys_timers.md R150 to R155) and the timer countdown (R157). -/

namespace Sys2Proof.Machine

/-- SKP (R150): the key is the low 4 bits of `V[x]` (D15). -/
def execSkp (x : RegIx) (s : State) : Host.Outcome State Fault Refusal :=
  .next (s.skipIf (s.keyDown (lowNibble (s.readV x))))

/-- SKNP (R151). -/
def execSknp (x : RegIx) (s : State) : Host.Outcome State Fault Refusal :=
  .next (s.skipIf (!s.keyDown (lowNibble (s.readV x))))

/-- LD_Vx_K (R152): one poll. With no key only `WAIT` is set and the same instruction is fetched again. -/
def execLdVxK (x : RegIx) (s : State) : Host.Outcome State Fault Refusal :=
  .next (match s.keyEvent with
    | some k => (State.writeV { s with wait := false } x (k.zeroExtend 8)).advance 2
    | none => { s with wait := true })

/-- LD_Vx_DT (R153). -/
def execLdVxDt (x : RegIx) (s : State) : Host.Outcome State Fault Refusal :=
  .next ((s.writeV x s.dt).advance 2)

/-- LD_DT_Vx (R154). -/
def execLdDtVx (x : RegIx) (s : State) : Host.Outcome State Fault Refusal :=
  .next (State.advance { s with dt := s.readV x } 2)

/-- LD_ST_Vx (R155). -/
def execLdStVx (x : RegIx) (s : State) : Host.Outcome State Fault Refusal :=
  .next (State.advance { s with st := s.readV x } 2)

/-- One timer on a tick: down by one, and 0 stays 0 (R157). -/
def countDown (t : Byte) : Byte := if t != 0 then t - 1 else t

/-- `TimerTick` (R157): a block that is not halted flushes `FB` and then counts both timers down. -/
def timerTick (s : State) : State :=
  if s.halted then s
  else { s with
    env := { s.env with frames := s.fb :: s.env.frames }
    dt := countDown s.dt
    st := countDown s.st }

end Sys2Proof.Machine
end

