-- ==== Sys2Proof/Machine/Events.lean ====
section
/-! DEFINITION. The events of the block (00_scope.md R13): the instruction step (60_exceptions.md R160), reset with load (70_reset_and_hazards.md R190, R193), and which event comes next (R203). `TimerTick` is in Keys.lean. -/

namespace Sys2Proof.Machine

/-- The fetch (20_memory.md R51): the word at `PC`, big-endian (R50), or the lowest address of the two that does not exist. Any parity of `PC` (R52). -/
def fetch (s : State) : Except Word Word :=
  if s.pc.toNat > Config.memSize - 1 then .error s.pc
  else if s.pc.toNat = Config.memSize - 1 then .error (BitVec.ofNat 16 Config.memSize)
  else .ok (wordOfBytes (s.mem.read s.pc.toNat) (s.mem.read (s.pc.toNat + 1)))

/-- The ports answer `p` in this step (R39, R40). -/
def State.withPorts (s : State) (p : Ports) : State := { s with env := { s.env with ports := p } }

/-- `InsnStep` (R160): nothing when halted; else one fetch, decode and execute with the port answers `p`. A fetch fault records no opcode (R162). -/
def insnStep (p : Ports) (s : State) : Host.Outcome State Fault Refusal :=
  if s.halted then .next s
  else
    match fetch s with
    | .ok w => exec (decodeWord w) (s.withPorts p)
    | .error a => .next ((s.withPorts p).raise .memRange none (some a))

/-- `Load(rom)` (R193): the image goes to 0x200 on; an image over 3584 bytes is refused. -/
def State.load (s : State) (rom : List Byte) : Host.Outcome State Fault Refusal :=
  if rom.length > Config.romMax then .refused (.romTooLarge rom.length)
  else .next { s with mem := s.mem.writeBlock Config.progBase rom }

/-- Reset and load (R190, R193): the reset state, with the strap and the model's own fields kept (log 10). -/
def resetAndLoad (rom : List Byte) (s : State) : Host.Outcome State Fault Refusal :=
  State.load { State.reset with shiftSrc := s.shiftSrc, env := s.env } rom

/-- The next event, and the state that has taken it from the list. With the list empty it is an `InsnStep` whose port answers are free (log 2, log 3). -/
def nextEvent (s : State) : Event × State :=
  match s.env.events with
  | [] => (.insn (Config.freePorts s.env.draws), { s with env := { s.env with draws := s.env.draws + 1 } })
  | e :: rest => (e, { s with env := { s.env with events := rest } })

/-- What the environment presents when both cadences fire at once: the instruction first (10_state.md R38). -/
def bothTicks (p : Ports) : List Event := [.insn p, .tick]

end Sys2Proof.Machine
end

