-- ==== Sys2Proof/Machine/Step.lean ====
section
/-! DEFINITION. One step: one event of the environment (00_scope.md R13). -/

namespace Sys2Proof.Machine

/-- One event: an `InsnStep`, a `TimerTick`, or reset with load. -/
def step (s : State) : Host.Outcome State Fault Refusal :=
  match nextEvent s with
  | (.insn p, t) => insnStep p t
  | (.tick, t) => .next (timerTick t)
  | (.reset rom, t) => resetAndLoad rom t

/-- Where the next fetch reads: `PC`, or 0x200 if two bytes at `PC` do not exist. -/
def State.fetchPlace (s : State) : Word :=
  if s.pc.toNat + 1 < Config.memSize then s.pc else BitVec.ofNat 16 Config.progBase

/-- The event list with an `InsnStep` next. -/
def State.insnNext (s : State) : List Event :=
  match s.env.events with
  | [] => []
  | .insn p :: rest => .insn p :: rest
  | es => .insn s.env.ports :: es

/-- `s` with the instruction of opcode-table number `w` where the next step fetches: its bytes at `PC`. What else the fetch needs is changed only if it is missing: a fetchable `PC`, no fault recorded, an `InsnStep` as next event (log 9). -/
def State.withFetchWord (s : State) (nbits w : Nat) : State :=
  { s with
    pc := s.fetchPlace
    mem := s.mem.writeBlock s.fetchPlace.toNat (bytesOfWord (tableWord nbits w))
    fault := if s.halted then FaultRecord.clear else s.fault
    env := { s.env with events := s.insnNext } }

end Sys2Proof.Machine
end

