-- ==== Sys2Proof/Safety.lean ====
section
/-! DEFINITION. What claims speak of: a run that has not gone wrong (60_exceptions.md R167), what an instruction leaves alone, the invariant of every step, and the pixels of a sprite. -/

namespace Sys2Proof.Machine

/-- No fatal fault is recorded: the run has not gone wrong (R166, R167). -/
def State.running (s : State) : Prop := s.fault.kind = .none

/-! ### Frames -/

/-- The parts of the block's state beside the general registers and `PC`. -/
inductive Part where
  | i
  | stack
  | dt
  | st
  | wait
  | fault
  | mem
  | fb
deriving DecidableEq, Repr

/-- What stays the same from `s` to `t`: every register but those in `regs` (VF is one of them), and every part but those in `parts`; memory byte by byte, the framebuffer pixel by pixel. `PC` is not spoken of. The strap and the model's own fields stay. -/
structure Frame (regs : List RegIx) (parts : List Part) (s t : State) : Prop where
  regs  : ∀ r, r ∉ regs → t.readV r = s.readV r
  i     : Part.i ∉ parts → t.i = s.i
  stack : Part.stack ∉ parts → t.sp = s.sp ∧ t.stack = s.stack
  dt    : Part.dt ∉ parts → t.dt = s.dt
  st    : Part.st ∉ parts → t.st = s.st
  wait  : Part.wait ∉ parts → t.wait = s.wait
  fault : Part.fault ∉ parts → t.fault = s.fault
  mem   : Part.mem ∉ parts → ∀ a, t.mem.read a = s.mem.read a
  fb    : Part.fb ∉ parts → ∀ y x, t.fb.pixel y x = s.fb.pixel y x
  rest  : t.shiftSrc = s.shiftSrc ∧ t.env = s.env

/-- The parts an instruction may write beside the registers and `PC`, its own fault apart (R22, R25 to R29, R33, R55). -/
def partsOf : Instr → List Part
  | .cls => [.fb]
  | .ret => [.stack]
  | .jp _ => []
  | .call _ => [.stack]
  | .seImm _ _ => []
  | .sneImm _ _ => []
  | .seReg _ _ => []
  | .ldImm _ _ => []
  | .addImm _ _ => []
  | .ldReg _ _ => []
  | .or _ _ => []
  | .and _ _ => []
  | .xor _ _ => []
  | .addReg _ _ => []
  | .sub _ _ => []
  | .shr _ _ => []
  | .subn _ _ => []
  | .shl _ _ => []
  | .sneReg _ _ => []
  | .ldI _ => [.i]
  | .jpV0 _ => []
  | .rnd _ _ => []
  | .drw _ _ _ => [.fb]
  | .skp _ => []
  | .sknp _ => []
  | .ldVxDt _ => []
  | .ldVxK _ => [.wait]
  | .ldDtVx _ => [.dt]
  | .ldStVx _ => [.st]
  | .addI _ => [.i]
  | .ldF _ => [.i]
  | .ldB _ => [.mem]
  | .stBlock _ => [.mem]
  | .ldBlock _ => []
  | .nop _ => []

/-- Whether the instruction may write `V[r]` (the write rows of R20's table, and VF as a flag, R21). -/
def writesReg : Instr → RegIx → Bool
  | .cls, _ => false
  | .ret, _ => false
  | .jp _, _ => false
  | .call _, _ => false
  | .seImm _ _, _ => false
  | .sneImm _ _, _ => false
  | .seReg _ _, _ => false
  | .ldImm x _, r => r == x
  | .addImm x _, r => r == x
  | .ldReg x _, r => r == x
  | .or x _, r => r == x
  | .and x _, r => r == x
  | .xor x _, r => r == x
  | .addReg x _, r => r == x || r == VF
  | .sub x _, r => r == x || r == VF
  | .shr x _, r => r == x || r == VF
  | .subn x _, r => r == x || r == VF
  | .shl x _, r => r == x || r == VF
  | .sneReg _ _, _ => false
  | .ldI _, _ => false
  | .jpV0 _, _ => false
  | .rnd x _, r => r == x
  | .drw _ _ _, r => r == VF
  | .skp _, _ => false
  | .sknp _, _ => false
  | .ldVxDt x, r => r == x
  | .ldVxK x, r => r == x
  | .ldDtVx _, _ => false
  | .ldStVx _, _ => false
  | .addI _, _ => false
  | .ldF _, _ => false
  | .ldB _, _ => false
  | .stBlock _, _ => false
  | .ldBlock x, r => decide (r.toNat ≤ x.toNat)
  | .nop _, _ => false

/-- The instructions that sample a port: SKP, SKNP, LD_Vx_K, RND (R39, R40). -/
def samplesPorts : Instr → Bool
  | .skp _ => true
  | .sknp _ => true
  | .ldVxK _ => true
  | .rnd _ _ => true
  | _ => false

/-- The fault kind an instruction can raise, if any (60_exceptions.md R168). -/
def faultOf : Instr → Option FaultKind
  | .call _ => some .stackOverflow
  | .ret => some .stackUnderflow
  | .drw _ _ _ => some .memRange
  | .ldB _ => some .memRange
  | .stBlock _ => some .memRange
  | .ldBlock _ => some .memRange
  | _ => none

/-! ### Sprites (43_display.md R141) -/

/-- Whether the sprite `bytes` at column `x0`, row `y0` has a 1 bit on the pixel in row `y`, column `x`, after wrap-around. -/
def coversPixel (bytes : List Byte) (x0 y0 : Nat) (y : Fin Config.fbH) (x : Fin Config.fbW) : Prop :=
  ∃ k < bytes.length, ∃ j < 8, (bytes.getD k 0).getLsbD (7 - j) = true ∧ (x0 + j) % Config.fbW = x.val ∧ (y0 + k) % Config.fbH = y.val

/-- Whether DRW `x y n` plots the pixel in row `r`, column `c`: its sprite is the `n` bytes from `I` on. -/
def State.plots (s : State) (x y : RegIx) (n : Nibble) (r : Fin Config.fbH) (c : Fin Config.fbW) : Prop :=
  coversPixel (s.mem.readBlock s.i.toNat n.toNat) (s.readV x).toNat (s.readV y).toNat r c

/-! ### The end of a program (70_reset_and_hazards.md R206) -/

/-- `PC` rests on a jump to itself, with no fault. -/
def State.finished (s : State) : Prop :=
  s.running ∧ ∃ nnn, fetch s = .ok (encode (.jp nnn)) ∧ s.pc = zextAddr nnn

/-! ### The invariant of every step -/

/-- What a fault record holds while it stands (R161, R165): nothing beside the kind when there is no fault; the address of the instruction at `PC`, its word and the address above 4095 as R161's table says. `FbRange` is never recorded (R143). -/
def State.faultRecorded (s : State) : Prop :=
  match s.fault.kind with
  | .none => s.fault.opcode = none ∧ s.fault.addr = none
  | .memRange => s.fault.pc = s.pc ∧ ∃ a, s.fault.addr = some a ∧ 4096 ≤ a.toNat
  | .stackOverflow => s.fault.pc = s.pc ∧ s.fault.opcode.isSome = true ∧ s.fault.addr = none
  | .stackUnderflow => s.fault.pc = s.pc ∧ s.fault.opcode.isSome = true ∧ s.fault.addr = none
  | .fbRange => False

/-- The invariant: memory is in canonical form and lists only addresses that exist; `PC` is at most 0x10FE (10_state.md R24); every return address on the stack is at most 0x1000 (R93); while `WAIT` is set the block is not halted and the instruction at `PC` is a key wait (R29, R152 (e)); the fault record is as R161 says. -/
structure Inv (s : State) : Prop where
  memory  : s.mem.wf = true
  pc      : s.pc.toNat ≤ 0x10FE
  returns : ∀ k (h : k < Config.stackDepth), k < s.sp.val → (s.stack[k]'h).toNat ≤ 0x1000
  waiting : s.wait = true → s.running ∧ ∃ x, fetch s = .ok (encode (.ldVxK x))
  fault   : s.faultRecorded

end Sys2Proof.Machine
end

