-- ==== Sys2Proof/Certificates/Slice0/Obligations.lean ====
section
/-! DEFINITION. The statements for the provers. Each docstring says what is stated and the spec's sections it rests on; OBLIGATIONS.json lists them. -/

open Sys2Proof Sys2Proof.Machine

/-- Reset leaves every register, the call stack, memory and the framebuffer at the values the spec states. In the reset state V[0] to V[15], I, SP, every stack entry, DT, ST and WAIT are 0, PC is 0x0200, no fault is recorded and the valid bits are 0, memory holds the 80 font bytes from 0x000 on and 0x00 elsewhere up to 0xFFF, and every pixel is 0. (R190) -/
def Obligations.ResetGivesTheStatedValues : Prop :=
  (∀ r, State.reset.readV r = 0) ∧ State.reset.i = 0 ∧ State.reset.pc = 0x0200 ∧ State.reset.sp = 0 ∧
  (∀ k (h : k < 16), State.reset.stack[k]'h = 0) ∧ State.reset.dt = 0 ∧ State.reset.st = 0 ∧ State.reset.wait = false ∧
  State.reset.fault.kind = .none ∧ State.reset.fault.opcode = none ∧ State.reset.fault.addr = none ∧
  Config.font.length = 80 ∧
  (∀ a, a < 80 → State.reset.mem.read a = Config.font.getD a 0) ∧
  (∀ a, 80 ≤ a → a < 4096 → State.reset.mem.read a = 0) ∧
  (∀ y x, State.reset.fb.pixel y x = false)

/-- The invariant of every step holds after reset. The reset state satisfies Inv: canonical memory, PC at most 0x10FE, live return addresses at most 0x1000, WAIT only at a key wait, a fault record as R161 says. (70_reset_and_hazards.md section 1; 10_state.md section 4) -/
def Obligations.ResetSatisfiesTheInvariant : Prop :=
  Inv State.reset

/-- Every step keeps the invariant. From every state that satisfies Inv, whatever the next event is (an instruction step with any port answers, a timer tick, or reset with any image), a step that answers a next state answers one that satisfies Inv: memory stays canonical and inside 0 to 4095, PC stays at most 0x10FE, live return addresses at most 0x1000, WAIT is set only while the instruction at PC is a key wait and no fault stands, and the fault record is one that R161 allows (FbRange never). (10_state.md sections 4, 5, 7 and 8; 44_keys_timers.md section 2; 60_exceptions.md sections 2 and 3) -/
def Obligations.StepKeepsTheInvariant : Prop :=
  ∀ s t : State, Inv s → step s = .next t → Inv t

/-- Decoding the bytes of a well-formed instruction gives the instruction and the bytes after it. For every well-formed instruction, with every value of every operand field, and any bytes after it, decoding its two bytes gives exactly that instruction and leaves exactly those bytes. (30_encoding.md sections 2, 3 and 5) -/
def Obligations.DecodingAnEncodedInstructionGivesItBack : Prop :=
  ∀ (i : Instr) (rest : List Byte), i.wellFormed = true → decode (encodeBytes i ++ rest) = .ok (i, rest)

/-- Every 16-bit word decodes to a well-formed instruction whose encoding is that word. For every word: the decoder gives a well-formed instruction, and encoding it gives the word back, so no bit of a word is dropped and no two words are one instruction. That a no-op keeps its word is the model's choice (log 8). (30_encoding.md section 5) -/
def Obligations.EncodingADecodedWordGivesItBack : Prop :=
  ∀ w : Word, (decodeWord w).wellFormed = true ∧ encode (decodeWord w) = w

/-- A word decodes to the instruction of the row whose mask and match it fits, and to NOP if it fits none. For every word and every row of the opcode map, if the word ANDed with the row's mask is the row's match, the decoder gives that row's instruction with the fields of the word; if the word fits no row, the decoder gives NOP. So no word fits two rows that build different instructions. (R75) -/
def Obligations.DecodingFollowsTheMatchingRow : Prop :=
  (∀ (w : Word) (r : OpRow), r ∈ opRows → w &&& r.mask = r.bits → decodeWord w = r.build w) ∧
  (∀ w : Word, (∀ r ∈ opRows, w &&& r.mask ≠ r.bits) → decodeWord w = .nop w)

/-- The words that decode to NOP are exactly those the table of unassigned words lists. A word decodes to NOP if and only if it is not assigned by the class-by-class table of 30_encoding.md section 6. That a literal digit must match exactly is the spec's own decision D19. (30_encoding.md section 6; 92_eei_decisions.md D19) -/
def Obligations.ExactlyTheUnassignedWordsAreNops : Prop :=
  ∀ w : Word, decodeWord w = .nop w ↔ assigned w = false

/-- Words written out from the opcode map decode to the instructions they stand for. At least one word of each of the sixteen classes 0 to F, written bit by bit from the encodings of the opcode map, decodes to its instruction and operands; an unassigned word of class 8 decodes to NOP. (30_encoding.md section 5; 95_test_vectors.md section 2.1) -/
def Obligations.KnownWordsDecode : Prop :=
  decodeWord 0b0000000011100000 = .cls ∧ decodeWord 0b0000000011101110 = .ret ∧
  decodeWord 0b0001000011100000 = .jp 0x0E0 ∧ decodeWord 0b0010111111111111 = .call 0xFFF ∧
  decodeWord 0b0011101001111011 = .seImm 0xA 0x7B ∧ decodeWord 0b0100111100000000 = .sneImm 0xF 0x00 ∧
  decodeWord 0b0101101010110000 = .seReg 0xA 0xB ∧ decodeWord 0b0110110000010010 = .ldImm 0xC 0x12 ∧
  decodeWord 0b0111110000010010 = .addImm 0xC 0x12 ∧ decodeWord 0b1001101010110000 = .sneReg 0xA 0xB ∧
  decodeWord 0b1011000100100011 = .jpV0 0x123 ∧ decodeWord 0b1100000111110000 = .rnd 0x1 0xF0 ∧
  decodeWord 0b1000101010110111 = .subn 0xA 0xB ∧ decodeWord 0b1000101010111110 = .shl 0xA 0xB ∧
  decodeWord 0b1000101010111000 = .nop 0x8AB8 ∧ decodeWord 0b1010000100100011 = .ldI 0x123 ∧
  decodeWord 0b1101000100101111 = .drw 0x1 0x2 0xF ∧ decodeWord 0b1110000110100001 = .sknp 0x1 ∧
  decodeWord 0b1111000100011110 = .addI 0x1 ∧ decodeWord 0b1111111101100101 = .ldBlock 0xF

/-- A step runs the instruction whose bytes are at PC. If no fault stands, PC is at most 0x0FFE (of any parity) and the two bytes at PC decode to the instruction i, then a step whose event is an instruction step is exec of i: with the port answers of the event if the list gives one, and with free port answers if the list is empty. Around exec the step only takes the event from the list (or counts the free answer) and sets the ports; nothing is added to PC. The second clause is the model's choice: that an empty list means an instruction step is log 2, that its free answers are counted is log 3. (60_exceptions.md section 1; 20_memory.md sections 1 to 3) -/
def Obligations.StepRunsTheDecodedInstruction : Prop :=
  ∀ (s : State) (i : Instr), s.running → s.pc.toNat ≤ 0x0FFE →
    decode [s.mem.read s.pc.toNat, s.mem.read (s.pc.toNat + 1)] = .ok (i, []) →
    (∀ p rest, s.env.events = .insn p :: rest →
      step s = exec i { s with env := { s.env with events := rest, ports := p } }) ∧
    (s.env.events = [] →
      step s = exec i { s with env := { s.env with draws := s.env.draws + 1, ports := Config.freePorts s.env.draws } })

/-- An instruction step whose two bytes do not both exist records MemRange and changes nothing else. With PC at 0x0FFF the recorded address is 0x1000, with PC above 0x0FFF it is PC; the recorded pc is PC and no opcode is recorded; of the block only FAULT changes. Which address is reported is the spec's own decision D7. (20_memory.md section 2; 60_exceptions.md sections 2 and 3; 92_eei_decisions.md D7) -/
def Obligations.FetchOutsideMemoryFaults : Prop :=
  ∀ (s t : State) (p : Ports), nextEvent s = (.insn p, t) → s.running →
    (s.pc = 0x0FFF → step s = .next { t.withPorts p with
      fault := { kind := .memRange, pc := s.pc, opcode := none, addr := some 0x1000 } }) ∧
    (s.pc.toNat > 0x0FFF → step s = .next { t.withPorts p with
      fault := { kind := .memRange, pc := s.pc, opcode := none, addr := some s.pc } }) ∧
    t.withPorts p = { s with env := (t.withPorts p).env }

/-- Every step answers a next state, but for the load of an image over 3584 bytes, which is refused. For every state: either the step answers a next state, or the next event is reset with an image of more than 3584 bytes and the step is the refusal of that image. No instruction, no encoding and no fault of the block stops the model. That a fatal fault shows as a next state is the model's reading (log 1), and so is that a refused load gives no next state (log 11). (60_exceptions.md sections 3, 4, 5 and 8; 70_reset_and_hazards.md section 2; 30_encoding.md section 6) -/
def Obligations.StepRefusesOnlyAnOversizedImage : Prop :=
  ∀ s : State, (∃ t, step s = .next t) ∨
    (∃ rom rest, s.env.events = .reset rom :: rest ∧ 3584 < rom.length ∧ step s = .refused (.romTooLarge rom.length))

/-- While a fault stands, any number of steps without a reset event changes nothing and flushes nothing. From a state with a fault recorded and no reset among its events, any number of steps answers a state that differs at most in the model's own event list, count of free answers; no frame is flushed and the fault record is the same. That the halted state is terminal is the spec's own decision D8. (60_exceptions.md section 3; 92_eei_decisions.md D8) -/
def Obligations.HaltedBlockChangesNothingUntilReset : Prop :=
  ∀ (n : Nat) (s : State), ¬ s.running → (∀ rom, Event.reset rom ∉ s.env.events) →
    ∃ t, Sys2Proof.core.run n s = .next t ∧ t = { s with env := t.env } ∧ t.env.frames = s.env.frames ∧ t.env.ports = s.env.ports

/-- Reset with load places the image at 0x200, leaves every other byte at its reset value and refuses an image over 3584 bytes. For an image of N bytes with N at most 3584 the step answers a state in which byte i of the image is at 0x200+i, every other byte of memory is as reset leaves it, and all else of the block is as reset leaves it, no fault standing; a longer image is refused. (R193) -/
def Obligations.ResetEventLoadsTheImage : Prop :=
  ∀ (s : State) (rom : List Byte) (rest : List Event), s.env.events = .reset rom :: rest →
    (rom.length ≤ 3584 → ∃ t, step s = .next t ∧
      (∀ k (h : k < rom.length), t.mem.read (0x200 + k) = rom[k]) ∧
      (∀ a, a < 0x200 ∨ 0x200 + rom.length ≤ a → t.mem.read a = State.reset.mem.read a) ∧
      t = { State.reset with mem := t.mem, shiftSrc := t.shiftSrc, env := t.env } ∧ t.running) ∧
    (3584 < rom.length → step s = .refused (.romTooLarge rom.length))

/-- No step changes the configuration strap SHIFT_SRC. Whatever the event, the strap of the next state is the strap of the state. That it is kept by reset is the model's choice (log 10). (00_scope.md section 3; 92_eei_decisions.md D12) -/
def Obligations.NoStepChangesTheShiftSource : Prop :=
  ∀ s t : State, step s = .next t → t.shiftSrc = s.shiftSrc

/-- The fault FbRange is recorded by no step. If a step answers a state whose fault kind is FbRange, the state before it had that kind already; both coordinates of every plotted pixel, reduced modulo 64 and 32, are inside the grid; and FbRange keeps its code, 4. The numbers of the fault codes are the spec's own decision D6. (43_display.md section 2; 60_exceptions.md section 2; 92_eei_decisions.md D6) -/
def Obligations.NoStepRecordsAFramebufferFault : Prop :=
  (∀ s t : State, step s = .next t → t.fault.kind = .fbRange → s.fault.kind = .fbRange) ∧
  (∀ x0 c y0 r : Nat, (column (x0 + c)).val = (x0 + c) % 64 ∧ (x0 + c) % 64 < 64 ∧ (row (y0 + r)).val = (y0 + r) % 32 ∧ (y0 + r) % 32 < 32) ∧
  FaultKind.fbRange.code = 4

/-- A timer tick flushes the framebuffer and takes each nonzero timer down by one; a halted block ignores it. With no fault standing, a tick emits the framebuffer as it is, takes DT and ST each down by one unless it is 0, and changes nothing else; with a fault standing it changes nothing and emits nothing (the spec's own decision D8). (44_keys_timers.md section 4; 10_state.md section 12; 92_eei_decisions.md D8) -/
def Obligations.TimerTickFlushesThenCountsDown : Prop :=
  ∀ (s : State) (rest : List Event), s.env.events = .tick :: rest →
    (s.running → ∃ t, step s = .next t ∧ t.dt.toNat = s.dt.toNat - 1 ∧ t.st.toNat = s.st.toNat - 1 ∧
      t.env = { s.env with events := rest, frames := s.fb :: s.env.frames } ∧
      t = { s with dt := t.dt, st := t.st, env := t.env }) ∧
    (¬ s.running → step s = .next { s with env := { s.env with events := rest } })

/-- After n ticks with no write between, a timer set to k reads max(k - n, 0). From a state with no fault whose next n events are ticks, n steps answer a state in which DT and ST are each n less, or 0, exactly n frames have been flushed, and all else but the event list is unchanged. (44_keys_timers.md section 4) -/
def Obligations.TimersReachZeroAndStayThere : Prop :=
  ∀ (n : Nat) (s : State) (rest : List Event), s.running → s.env.events = List.replicate n .tick ++ rest →
    ∃ t, Sys2Proof.core.run n s = .next t ∧ t.dt.toNat = s.dt.toNat - n ∧ t.st.toNat = s.st.toNat - n ∧
      t.env = { s.env with events := rest, frames := List.replicate n s.fb ++ s.env.frames } ∧
      t = { s with dt := t.dt, st := t.st, env := t.env }

/-- When both cadences fire together the instruction is run first and the timers count after it. With both ticks presented together, the first step is the instruction step and the second is the timer tick of the state it leaves. The order is the spec's own decision D2. (10_state.md section 12; 92_eei_decisions.md D2) -/
def Obligations.BothTicksRunTheInstructionFirst : Prop :=
  ∀ (s : State) (p : Ports) (rest : List Event), s.env.events = bothTicks p ++ rest →
    ∃ t, step s = .next t ∧ insnStep p { s with env := { s.env with events := .tick :: rest } } = .next t ∧
      Sys2Proof.core.run 2 s = .next (timerTick { t with env := { t.env with events := rest } })

/-- An unassigned word is a no-op: PC advances by 2 and nothing else changes. Every unassigned word decodes to NOP, and NOP, whatever word it was decoded from, completes in every state with PC + 2 and every register, memory byte, pixel, timer and stack entry unchanged. (R90) -/
def Obligations.NopOnlyAdvances : Prop :=
  ∀ (w : Word) (s : State), (assigned w = false → decodeWord w = .nop w) ∧
    ∃ t, exec (.nop w) s = .next t ∧ t.pc = s.pc + 2 ∧ Frame [] [] s t

/-- JP goes to NNN and JP_V0 to NNN + V[0], without wrapping and without a check. In every state JP completes with PC = NNN and JP_V0 with PC = NNN + V[0] as numbers; nothing else changes. (R92; R98) -/
def Obligations.JumpsSetThePc : Prop :=
  ∀ (nnn : Addr12) (s : State),
    (decodeWord (0x1#4 ++ nnn) = .jp nnn ∧
      ∃ t, exec (.jp nnn) s = .next t ∧ t.pc.toNat = nnn.toNat ∧ Frame [] [] s t) ∧
    (decodeWord (0xB#4 ++ nnn) = .jpV0 nnn ∧
      ∃ t, exec (.jpV0 nnn) s = .next t ∧ t.pc.toNat = nnn.toNat + (s.readV 0).toNat ∧ Frame [] [] s t)

/-- CALL pushes PC + 2 and jumps, or records StackOverflow when 16 calls are active. With fewer than 16 return addresses CALL completes: the entry at SP becomes PC + 2, the other entries stay, SP goes up by one and PC is NNN; nothing else changes. With 16 it records StackOverflow with the address and the word of the CALL and changes nothing but FAULT. (R93) -/
def Obligations.CallPushesOrOverflows : Prop :=
  ∀ (nnn : Addr12) (s : State), decodeWord (0x2#4 ++ nnn) = .call nnn ∧
    (s.sp.val < 16 → ∃ t, exec (.call nnn) s = .next t ∧ t.pc.toNat = nnn.toNat ∧ t.sp.val = s.sp.val + 1 ∧
      (∀ k (h : k < 16), t.stack[k]'h = if k = s.sp.val then s.pc + 2 else s.stack[k]'h) ∧ Frame [] [.stack] s t) ∧
    (s.sp.val = 16 → exec (.call nnn) s = .next { s with
      fault := { kind := .stackOverflow, pc := s.pc, opcode := some (0x2#4 ++ nnn), addr := none } })

/-- RET takes the top return address as PC, or records StackUnderflow on an empty stack. With SP above 0 RET completes: PC is the entry at SP - 1, SP goes down by one, and every entry keeps its bits; nothing else changes. With SP = 0 it records StackUnderflow with the address and the word 0x00EE and changes nothing but FAULT. (R91) -/
def Obligations.RetPopsOrUnderflows : Prop :=
  ∀ s : State, decodeWord 0x00EE = .ret ∧
    (∀ h : 0 < s.sp.val, ∃ t, exec .ret s = .next t ∧ t.pc = s.stack[s.sp.val - 1]'(by omega) ∧ t.sp.val = s.sp.val - 1 ∧
      t.stack = s.stack ∧ Frame [] [.stack] s t) ∧
    (s.sp.val = 0 → exec .ret s = .next { s with
      fault := { kind := .stackUnderflow, pc := s.pc, opcode := some 0x00EE, addr := none } })

/-- A CALL and then a RET at its target come back to the instruction after the CALL. If the stack is not full, CALL answers a state from which RET answers a state with PC = PC + 2 of the CALL, the old stack depth, and every live stack entry as before. (40_flow.md sections 2 and 4; 95_test_vectors.md section 1) -/
def Obligations.CallThenRetReturns : Prop :=
  ∀ (nnn : Addr12) (s : State), s.sp.val < 16 →
    ∃ t u, exec (.call nnn) s = .next t ∧ exec .ret t = .next u ∧ u.pc = s.pc + 2 ∧ u.sp = s.sp ∧
      (∀ k (h : k < 16), k < s.sp.val → u.stack[k]'h = s.stack[k]'h) ∧ Frame [] [.stack] s u

/-- SE_imm and SE_reg skip exactly when the two values are equal. In every state SE_imm and SE_reg complete: PC goes up by 4 when V[X] equals NN, or V[Y], and by 2 otherwise; nothing else changes. With X = Y SE_reg always skips. (R94; R96) -/
def Obligations.SkipsOnEqual : Prop :=
  ∀ (x y : RegIx) (nn : Byte) (s : State),
    (decodeWord (0x3#4 ++ x ++ nn) = .seImm x nn ∧ ∃ t, exec (.seImm x nn) s = .next t ∧
      (s.readV x = nn → t.pc = s.pc + 4) ∧ (s.readV x ≠ nn → t.pc = s.pc + 2) ∧ Frame [] [] s t) ∧
    (decodeWord (0x5#4 ++ x ++ y ++ 0x0#4) = .seReg x y ∧ ∃ t, exec (.seReg x y) s = .next t ∧
      (s.readV x = s.readV y → t.pc = s.pc + 4) ∧ (s.readV x ≠ s.readV y → t.pc = s.pc + 2) ∧
      (x = y → t.pc = s.pc + 4) ∧ Frame [] [] s t)

/-- SNE_imm and SNE_reg skip exactly when the two values differ. In every state SNE_imm and SNE_reg complete: PC goes up by 4 when V[X] differs from NN, or V[Y], and by 2 otherwise; nothing else changes. With X = Y SNE_reg never skips. Which pattern takes != is the spec's own inference from the order of the source's rows. (40_flow.md sections 5 and 6) -/
def Obligations.SkipsOnNotEqual : Prop :=
  ∀ (x y : RegIx) (nn : Byte) (s : State),
    (decodeWord (0x4#4 ++ x ++ nn) = .sneImm x nn ∧ ∃ t, exec (.sneImm x nn) s = .next t ∧
      (s.readV x ≠ nn → t.pc = s.pc + 4) ∧ (s.readV x = nn → t.pc = s.pc + 2) ∧ Frame [] [] s t) ∧
    (decodeWord (0x9#4 ++ x ++ y ++ 0x0#4) = .sneReg x y ∧ ∃ t, exec (.sneReg x y) s = .next t ∧
      (s.readV x ≠ s.readV y → t.pc = s.pc + 4) ∧ (s.readV x = s.readV y → t.pc = s.pc + 2) ∧
      (x = y → t.pc = s.pc + 2) ∧ Frame [] [] s t)

/-- LD_imm, LD_reg and ADD_imm write V[X] and nothing else, ADD_imm modulo 256 with no flag. In every state the three complete with PC + 2: V[X] becomes NN, V[Y], or V[X] + NN modulo 256; every other register, VF among them, and all else is unchanged. (R110; R111; R112) -/
def Obligations.LoadCopyAndAddImmediate : Prop :=
  ∀ (x y : RegIx) (nn : Byte) (s : State),
    (decodeWord (0x6#4 ++ x ++ nn) = .ldImm x nn ∧ ∃ t, exec (.ldImm x nn) s = .next t ∧
      t.readV x = nn ∧ t.pc = s.pc + 2 ∧ Frame [x] [] s t) ∧
    (decodeWord (0x7#4 ++ x ++ nn) = .addImm x nn ∧ ∃ t, exec (.addImm x nn) s = .next t ∧
      (t.readV x).toNat = ((s.readV x).toNat + nn.toNat) % 256 ∧ t.pc = s.pc + 2 ∧ Frame [x] [] s t) ∧
    (decodeWord (0x8#4 ++ x ++ y ++ 0x0#4) = .ldReg x y ∧ ∃ t, exec (.ldReg x y) s = .next t ∧
      t.readV x = s.readV y ∧ t.pc = s.pc + 2 ∧ Frame [x] [] s t)

/-- OR, AND and XOR write V[X] bit by bit and leave VF alone unless X is F. In every state the three complete with PC + 2: each bit of V[X] becomes the or, and, or exclusive or of the bits of V[X] and V[Y]; every other register, VF among them, and all else is unchanged. That VF is unchanged is the spec's own decision D11. (41_alu.md section 2; 92_eei_decisions.md D11) -/
def Obligations.LogicLeavesTheFlag : Prop :=
  ∀ (x y : RegIx) (s : State),
    (decodeWord (0x8#4 ++ x ++ y ++ 0x1#4) = .or x y ∧ ∃ t, exec (.or x y) s = .next t ∧
      (∀ k, (t.readV x).getLsbD k = ((s.readV x).getLsbD k || (s.readV y).getLsbD k)) ∧ t.pc = s.pc + 2 ∧ Frame [x] [] s t) ∧
    (decodeWord (0x8#4 ++ x ++ y ++ 0x2#4) = .and x y ∧ ∃ t, exec (.and x y) s = .next t ∧
      (∀ k, (t.readV x).getLsbD k = ((s.readV x).getLsbD k && (s.readV y).getLsbD k)) ∧ t.pc = s.pc + 2 ∧ Frame [x] [] s t) ∧
    (decodeWord (0x8#4 ++ x ++ y ++ 0x3#4) = .xor x y ∧ ∃ t, exec (.xor x y) s = .next t ∧
      (∀ k, (t.readV x).getLsbD k = ((s.readV x).getLsbD k ^^ (s.readV y).getLsbD k)) ∧ t.pc = s.pc + 2 ∧ Frame [x] [] s t)

/-- ADD_reg writes the sum modulo 256 to V[X] and the carry to VF, the flag last. In every state ADD_reg completes with PC + 2: VF is 1 if the unsigned sum of the old V[X] and V[Y] exceeds 255 and 0 if not, and V[X] is the sum modulo 256 unless X is F, where the flag replaces it; nothing else changes. (R116) -/
def Obligations.AddRegisterSumAndCarry : Prop :=
  ∀ (x y : RegIx) (s : State), decodeWord (0x8#4 ++ x ++ y ++ 0x4#4) = .addReg x y ∧
    ∃ t, exec (.addReg x y) s = .next t ∧
      (t.readV VF).toNat = (if (s.readV x).toNat + (s.readV y).toNat > 255 then 1 else 0) ∧
      (x ≠ VF → (t.readV x).toNat = ((s.readV x).toNat + (s.readV y).toNat) % 256) ∧
      t.pc = s.pc + 2 ∧ Frame [x, VF] [] s t

/-- SUB writes V[X] - V[Y] modulo 256 and sets VF exactly when no borrow is needed, the flag last. In every state SUB completes with PC + 2: VF is 1 if the old V[X] is at least V[Y] and 0 if not, and V[X] is the difference modulo 256 unless X is F; nothing else changes. (R117) -/
def Obligations.SubDifferenceAndNoBorrow : Prop :=
  ∀ (x y : RegIx) (s : State), decodeWord (0x8#4 ++ x ++ y ++ 0x5#4) = .sub x y ∧
    ∃ t, exec (.sub x y) s = .next t ∧
      (t.readV VF).toNat = (if (s.readV x).toNat ≥ (s.readV y).toNat then 1 else 0) ∧
      (x ≠ VF → (t.readV x).toNat = ((s.readV x).toNat + 256 - (s.readV y).toNat) % 256) ∧
      t.pc = s.pc + 2 ∧ Frame [x, VF] [] s t

/-- SUBN writes V[Y] - V[X] modulo 256 and sets VF exactly when V[Y] is at least V[X]. In every state SUBN completes with PC + 2: VF is 1 if the old V[Y] is at least V[X] and 0 if not, and V[X] is V[Y] - V[X] modulo 256 unless X is F; nothing else changes. The flag of SUBN is the spec's own decision D13. (41_alu.md section 3; 92_eei_decisions.md D13) -/
def Obligations.SubnIsSubWithOperandsExchanged : Prop :=
  ∀ (x y : RegIx) (s : State), decodeWord (0x8#4 ++ x ++ y ++ 0x7#4) = .subn x y ∧
    ∃ t, exec (.subn x y) s = .next t ∧
      (t.readV VF).toNat = (if (s.readV y).toNat ≥ (s.readV x).toNat then 1 else 0) ∧
      (x ≠ VF → (t.readV x).toNat = ((s.readV y).toNat + 256 - (s.readV x).toNat) % 256) ∧
      t.pc = s.pc + 2 ∧ Frame [x, VF] [] s t

/-- SHR and SHL shift the configured source by one place and put the bit shifted out in VF. For both values of SHIFT_SRC and in every state the two complete with PC + 2: with b the old V[X] (VX) or V[Y] (VY), SHR writes b div 2 and the bit b mod 2, SHL writes 2b mod 256 and the bit b div 128, the flag last; nothing else changes. Which register is shifted is open (the spec's D12) and held in the strap (log 5). (41_alu.md section 4; 92_eei_decisions.md D12) -/
def Obligations.ShiftsOfTheConfiguredSource : Prop :=
  ∀ (x y : RegIx) (s : State) (b : Byte),
    (s.shiftSrc = .vx → b = s.readV x) → (s.shiftSrc = .vy → b = s.readV y) →
    (decodeWord (0x8#4 ++ x ++ y ++ 0x6#4) = .shr x y ∧ ∃ t, exec (.shr x y) s = .next t ∧
      (t.readV VF).toNat = b.toNat % 2 ∧ (x ≠ VF → (t.readV x).toNat = b.toNat / 2) ∧
      t.pc = s.pc + 2 ∧ Frame [x, VF] [] s t) ∧
    (decodeWord (0x8#4 ++ x ++ y ++ 0xE#4) = .shl x y ∧ ∃ t, exec (.shl x y) s = .next t ∧
      (t.readV VF).toNat = b.toNat / 128 ∧ (x ≠ VF → (t.readV x).toNat = 2 * b.toNat % 256) ∧
      t.pc = s.pc + 2 ∧ Frame [x, VF] [] s t)

/-- With X = Y = F each of the six flag-writing instructions leaves the flag in VF. In every state: ADD_reg leaves 1 if the old VF is at least 128 and 0 if not; SUB and SUBN leave 1; SHR leaves bit 0 and SHL bit 7 of the old VF, under either SHIFT_SRC; DRW with any N whose sprite is inside memory takes both coordinates from the old VF and leaves 1 if a pixel it plots was set and 0 if not; no other register changes. That the flag wins is the spec's own decision D10, the bit order of a sprite its D23. (41_alu.md section 5; 43_display.md section 2; 92_eei_decisions.md D10, D23) -/
def Obligations.FlagWinsWhenBothOperandsAreVF : Prop :=
  ∀ s : State,
    (∃ t, exec (.addReg VF VF) s = .next t ∧ (t.readV VF).toNat = (if 128 ≤ (s.readV VF).toNat then 1 else 0) ∧ Frame [VF] [] s t) ∧
    (∃ t, exec (.sub VF VF) s = .next t ∧ t.readV VF = 1 ∧ Frame [VF] [] s t) ∧
    (∃ t, exec (.subn VF VF) s = .next t ∧ t.readV VF = 1 ∧ Frame [VF] [] s t) ∧
    (∃ t, exec (.shr VF VF) s = .next t ∧ (t.readV VF).toNat = (s.readV VF).toNat % 2 ∧ Frame [VF] [] s t) ∧
    (∃ t, exec (.shl VF VF) s = .next t ∧ (t.readV VF).toNat = (s.readV VF).toNat / 128 ∧ Frame [VF] [] s t) ∧
    (∀ n : Nibble, n = 0 ∨ s.i.toNat + n.toNat - 1 ≤ 4095 → ∃ t, exec (.drw VF VF n) s = .next t ∧
      ((∃ r c, s.fb.pixel r c = true ∧ ∃ k < n.toNat, ∃ j < 8, (s.mem.read (s.i.toNat + k)).getLsbD (7 - j) = true ∧
        ((s.readV VF).toNat + j) % 64 = c.val ∧ ((s.readV VF).toNat + k) % 32 = r.val) → t.readV VF = 1) ∧
      (¬ (∃ r c, s.fb.pixel r c = true ∧ ∃ k < n.toNat, ∃ j < 8, (s.mem.read (s.i.toNat + k)).getLsbD (7 - j) = true ∧
        ((s.readV VF).toNat + j) % 64 = c.val ∧ ((s.readV VF).toNat + k) % 32 = r.val) → t.readV VF = 0) ∧ Frame [VF] [.fb] s t)

/-- RND writes the random byte ANDed with NN, whatever the random byte is. In every state, so with every answer of the random port, RND completes with PC + 2: bit k of V[X] is 0 where bit k of NN is 0 and is the random byte's bit where it is 1; nothing else changes. The byte is a free input (the spec's D18, log 3). (41_alu.md section 6; 10_state.md section 12; 92_eei_decisions.md D18) -/
def Obligations.RandomByteIsMasked : Prop :=
  ∀ (x : RegIx) (nn : Byte) (s : State), decodeWord (0xC#4 ++ x ++ nn) = .rnd x nn ∧
    ∃ t, exec (.rnd x nn) s = .next t ∧
      (∀ k, nn.getLsbD k = false → (t.readV x).getLsbD k = false) ∧
      (∀ k, nn.getLsbD k = true → (t.readV x).getLsbD k = s.env.ports.randByte.getLsbD k) ∧
      t.pc = s.pc + 2 ∧ Frame [x] [] s t

/-- LD_I sets I to NNN; ADD_I adds V[X] to I modulo 65536 with no flag and no fault. In every state LD_I and ADD_I complete with PC + 2: I becomes NNN, or I + V[X] modulo 65536; every register, VF among them, and all else is unchanged. (R130; R131) -/
def Obligations.LoadAndAddToAddressRegister : Prop :=
  ∀ (nnn : Addr12) (x : RegIx) (s : State),
    (decodeWord (0xA#4 ++ nnn) = .ldI nnn ∧ ∃ t, exec (.ldI nnn) s = .next t ∧
      t.i.toNat = nnn.toNat ∧ t.pc = s.pc + 2 ∧ Frame [] [.i] s t) ∧
    (decodeWord (0xF#4 ++ x ++ 0x1E#8) = .addI x ∧ ∃ t, exec (.addI x) s = .next t ∧
      t.i.toNat = (s.i.toNat + (s.readV x).toNat) % 65536 ∧ t.pc = s.pc + 2 ∧ Frame [] [.i] s t)

/-- LD_F sets I to five times the low hexadecimal digit of V[X]. In every state LD_F completes with PC + 2 and I = 5 * (V[X] mod 16), so a glyph inside the font; nothing else changes. The low 4 bits and the stride are the spec's own decision D16. (42_index_memory.md section 1; 92_eei_decisions.md D16) -/
def Obligations.GlyphAddressOfTheLowDigit : Prop :=
  ∀ (x : RegIx) (s : State), decodeWord (0xF#4 ++ x ++ 0x29#8) = .ldF x ∧
    ∃ t, exec (.ldF x) s = .next t ∧ t.i.toNat = 5 * ((s.readV x).toNat % 16) ∧ t.i.toNat + 5 ≤ 80 ∧
      t.pc = s.pc + 2 ∧ Frame [] [.i] s t

/-- LD_B stores the three decimal digits of V[X] at I, I+1 and I+2, or records MemRange and stores nothing. With I at most 4093 LD_B completes with PC + 2: the bytes at I, I+1, I+2 are the hundreds, tens and ones digit, every other byte and all else is unchanged. With I above 4093 it records MemRange, the address max(I, 4096), PC and its word, and changes nothing but FAULT. The digit order is the spec's own decision D24, writing nothing its D5. (42_index_memory.md section 2; 60_exceptions.md sections 2 and 3; 92_eei_decisions.md D5, D24) -/
def Obligations.DecimalDigitsAreStored : Prop :=
  ∀ (x : RegIx) (s : State), decodeWord (0xF#4 ++ x ++ 0x33#8) = .ldB x ∧
    (s.i.toNat + 2 ≤ 4095 → ∃ t, exec (.ldB x) s = .next t ∧
      (t.mem.read s.i.toNat).toNat = (s.readV x).toNat / 100 ∧
      (t.mem.read (s.i.toNat + 1)).toNat = (s.readV x).toNat / 10 % 10 ∧
      (t.mem.read (s.i.toNat + 2)).toNat = (s.readV x).toNat % 10 ∧
      (∀ a, a < s.i.toNat ∨ s.i.toNat + 3 ≤ a → t.mem.read a = s.mem.read a) ∧
      t.pc = s.pc + 2 ∧ Frame [] [.mem] s t) ∧
    (4095 < s.i.toNat + 2 → exec (.ldB x) s = .next { s with fault :=
      { kind := .memRange, pc := s.pc, opcode := some (0xF#4 ++ x ++ 0x33#8), addr := some (if s.i.toNat ≤ 4096 then 4096 else s.i) } })

/-- ST_block stores V[0] to V[X] from I on, or records MemRange and stores nothing. With I + X at most 4095 ST_block completes with PC + 2: byte I + k is V[k] for k up to X, every other byte and all else, I and the registers among it, is unchanged. Otherwise it records MemRange, the address max(I, 4096), PC and its word, and changes nothing but FAULT. That I stays is the spec's own decision D14, writing nothing its D5. (42_index_memory.md section 3; 60_exceptions.md sections 2 and 3; 92_eei_decisions.md D5, D14) -/
def Obligations.RegisterBlockIsStored : Prop :=
  ∀ (x : RegIx) (s : State), decodeWord (0xF#4 ++ x ++ 0x55#8) = .stBlock x ∧
    (s.i.toNat + x.toNat ≤ 4095 → ∃ t, exec (.stBlock x) s = .next t ∧
      (∀ k : RegIx, k.toNat ≤ x.toNat → t.mem.read (s.i.toNat + k.toNat) = s.readV k) ∧
      (∀ a, a < s.i.toNat ∨ s.i.toNat + x.toNat + 1 ≤ a → t.mem.read a = s.mem.read a) ∧
      t.pc = s.pc + 2 ∧ Frame [] [.mem] s t) ∧
    (4095 < s.i.toNat + x.toNat → exec (.stBlock x) s = .next { s with fault :=
      { kind := .memRange, pc := s.pc, opcode := some (0xF#4 ++ x ++ 0x55#8), addr := some (if s.i.toNat ≤ 4096 then 4096 else s.i) } })

/-- LD_block loads V[0] to V[X] from I on, or records MemRange and loads nothing. With I + X at most 4095 LD_block completes with PC + 2: V[k] is the byte at I + k for k up to X, the registers above X and all else, I and memory among it, is unchanged. Otherwise it records MemRange, the address max(I, 4096), PC and its word, and changes nothing but FAULT. That I stays is the spec's own decision D14, loading nothing its D5. (42_index_memory.md section 3; 60_exceptions.md sections 2 and 3; 92_eei_decisions.md D5, D14) -/
def Obligations.RegisterBlockIsLoaded : Prop :=
  ∀ (x : RegIx) (s : State), decodeWord (0xF#4 ++ x ++ 0x65#8) = .ldBlock x ∧
    (s.i.toNat + x.toNat ≤ 4095 → ∃ t, exec (.ldBlock x) s = .next t ∧
      (∀ k : RegIx, k.toNat ≤ x.toNat → t.readV k = s.mem.read (s.i.toNat + k.toNat)) ∧
      (∀ k : RegIx, x.toNat < k.toNat → t.readV k = s.readV k) ∧
      t.pc = s.pc + 2 ∧ Frame [0, 1, 2, 3, 4, 5, 6, 7, 8, 9, 10, 11, 12, 13, 14, 15] [] s t) ∧
    (4095 < s.i.toNat + x.toNat → exec (.ldBlock x) s = .next { s with fault :=
      { kind := .memRange, pc := s.pc, opcode := some (0xF#4 ++ x ++ 0x65#8), addr := some (if s.i.toNat ≤ 4096 then 4096 else s.i) } })

/-- A register block stored and then loaded from the same place gives the registers back. With I + X at most 4095, ST_block and then LD_block with any registers in between gives V[0] to V[X] the values they had: if u agrees with the state after the store in I and memory, LD_block from u gives back the stored registers. (42_index_memory.md section 3) -/
def Obligations.StoredBlockLoadsBack : Prop :=
  ∀ (x : RegIx) (s t u : State), s.i.toNat + x.toNat ≤ 4095 → exec (.stBlock x) s = .next t → u.i = t.i → u.mem = t.mem →
    ∃ r, exec (.ldBlock x) u = .next r ∧ ∀ k : RegIx, k.toNat ≤ x.toNat → r.readV k = s.readV k

/-- A register block stored over the next instruction is what the next fetch reads. If I is the address after an ST_block with X at least 1 and both bytes exist, then after it the fetch reads the word made of the old V[0] and V[1], with nothing in between. (20_memory.md section 8; 95_test_vectors.md P7) -/
def Obligations.StoredCodeIsFetchedNext : Prop :=
  ∀ (x : RegIx) (s : State), 1 ≤ x.toNat → s.i = s.pc + 2 → s.i.toNat + x.toNat ≤ 4095 →
    ∃ t, exec (.stBlock x) s = .next t ∧ fetch t = .ok (s.readV 0 ++ s.readV 1)

/-- CLS clears every pixel and changes nothing else. In every state CLS completes with PC + 2 and every pixel 0; registers, VF among them, memory, timers and all else are unchanged. (R140) -/
def Obligations.ClearScreenClears : Prop :=
  ∀ s : State, decodeWord 0x00E0 = .cls ∧
    ∃ t, exec .cls s = .next t ∧ (∀ y x, t.fb.pixel y x = false) ∧ t.pc = s.pc + 2 ∧ Frame [] [.fb] s t

/-- DRW turns over exactly the pixels its sprite covers after wrap-around and sets VF exactly on a collision. If N is 0 or I + N - 1 is at most 4095, DRW completes with PC + 2. A pixel is turned over if some row k below N and column j below 8 of the sprite has a 1 bit (bit 7 - j of the byte at I + k) that falls on it, (V[X] + j) mod 64 and (V[Y] + k) mod 32, and every other pixel stays; VF is 1 if a covered pixel was set before and 0 if not; nothing else changes. Coordinates come from the old registers, X or Y = F included. The bit order is the spec's own decision D23, that VF is written last its D10. (43_display.md section 2; 92_eei_decisions.md D10, D23) -/
def Obligations.SpriteTurnsOverExactlyItsPixels : Prop :=
  ∀ (x y : RegIx) (n : Nibble) (s : State), decodeWord (0xD#4 ++ x ++ y ++ n) = .drw x y n ∧
    (n = 0 ∨ s.i.toNat + n.toNat - 1 ≤ 4095 →
      ∃ t, exec (.drw x y n) s = .next t ∧
        (∀ r c, (∃ k < n.toNat, ∃ j < 8, (s.mem.read (s.i.toNat + k)).getLsbD (7 - j) = true ∧
            ((s.readV x).toNat + j) % 64 = c.val ∧ ((s.readV y).toNat + k) % 32 = r.val) →
          t.fb.pixel r c = !s.fb.pixel r c) ∧
        (∀ r c, ¬ (∃ k < n.toNat, ∃ j < 8, (s.mem.read (s.i.toNat + k)).getLsbD (7 - j) = true ∧
            ((s.readV x).toNat + j) % 64 = c.val ∧ ((s.readV y).toNat + k) % 32 = r.val) →
          t.fb.pixel r c = s.fb.pixel r c) ∧
        (t.readV VF = 1 ↔ ∃ r c, s.fb.pixel r c = true ∧ t.fb.pixel r c = false) ∧
        (t.readV VF = 0 ∨ t.readV VF = 1) ∧ t.pc = s.pc + 2 ∧ Frame [VF] [.fb] s t)

/-- DRW with a sprite byte above 4095 records MemRange and draws nothing. With N above 0 and I + N - 1 above 4095 DRW records MemRange, the address max(I, 4096), PC and its word, and changes nothing but FAULT: no pixel and not VF. That nothing is drawn is the spec's own decision D5. (43_display.md section 2; 60_exceptions.md sections 2 and 3; 92_eei_decisions.md D5) -/
def Obligations.SpriteOutsideMemoryFaults : Prop :=
  ∀ (x y : RegIx) (n : Nibble) (s : State), 0 < n.toNat → 4095 < s.i.toNat + n.toNat - 1 →
    exec (.drw x y n) s = .next { s with fault :=
      { kind := .memRange, pc := s.pc, opcode := some (0xD#4 ++ x ++ y ++ n), addr := some (if s.i.toNat ≤ 4096 then 4096 else s.i) } }

/-- The same sprite drawn twice at the same place restores the framebuffer. If DRW completes and the second DRW finds the same coordinates, I and sprite bytes, the framebuffer after it is the one before the first; and VF is then 1 exactly when the sprite has a 1 bit on a pixel that was 0 before the first. (43_display.md section 2) -/
def Obligations.DrawingTwiceRestoresTheScreen : Prop :=
  ∀ (x y : RegIx) (n : Nibble) (s t : State), (n = 0 ∨ s.i.toNat + n.toNat - 1 ≤ 4095) → exec (.drw x y n) s = .next t →
    t.readV x = s.readV x → t.readV y = s.readV y →
    ∃ u, exec (.drw x y n) t = .next u ∧ u.fb = s.fb ∧
      (u.readV VF = 1 ↔ ∃ r c, s.plots x y n r c ∧ s.fb.pixel r c = false)

/-- SKP skips exactly when the key named by the low 4 bits of V[X] is pressed, SKNP exactly when it is not. In every state, so with every answer of the key port, both complete: PC goes up by 4 or 2 as the key's bit in key_down says; nothing else changes. The low 4 bits are the spec's own decision D15, which pattern is which its inference. (44_keys_timers.md section 1; 92_eei_decisions.md D15) -/
def Obligations.KeySkipsFollowTheKey : Prop :=
  ∀ (x : RegIx) (s : State),
    (decodeWord (0xE#4 ++ x ++ 0x9E#8) = .skp x ∧ ∃ t, exec (.skp x) s = .next t ∧ Frame [] [] s t ∧
      (s.env.ports.keyDown.getLsbD ((s.readV x).toNat % 16) = true → t.pc = s.pc + 4) ∧
      (s.env.ports.keyDown.getLsbD ((s.readV x).toNat % 16) = false → t.pc = s.pc + 2)) ∧
    (decodeWord (0xE#4 ++ x ++ 0xA1#8) = .sknp x ∧ ∃ t, exec (.sknp x) s = .next t ∧ Frame [] [] s t ∧
      (s.env.ports.keyDown.getLsbD ((s.readV x).toNat % 16) = false → t.pc = s.pc + 4) ∧
      (s.env.ports.keyDown.getLsbD ((s.readV x).toNat % 16) = true → t.pc = s.pc + 2))

/-- LD_Vx_K with a key stores it, clears WAIT and advances; without one it only sets WAIT. When the key port reports key k, LD_Vx_K completes: V[X] = k, WAIT = 0, PC + 2, nothing else changes. When it reports none, the instruction waits: WAIT = 1, PC unchanged, nothing else changes. The polling design is the spec's own decision D17. (44_keys_timers.md section 2; 92_eei_decisions.md D17) -/
def Obligations.KeyWaitPollsOnce : Prop :=
  ∀ (x : RegIx) (s : State), decodeWord (0xF#4 ++ x ++ 0x0A#8) = .ldVxK x ∧
    (∀ k, s.env.ports.keyEvent = some k → ∃ t, exec (.ldVxK x) s = .next t ∧
      (t.readV x).toNat = k.toNat ∧ t.wait = false ∧ t.pc = s.pc + 2 ∧ Frame [x] [.wait] s t) ∧
    (s.env.ports.keyEvent = none → exec (.ldVxK x) s = .next { s with wait := true })

/-- A key wait polls until the provider reports a key, however many polls that takes, and timers run meanwhile. At a key wait with no fault standing, if the next events are n pairs of a poll that finds no key and a timer tick, and then a poll that finds key k, then 2n + 1 steps answer the state with V[X] = k, WAIT = 0, PC + 2, DT and ST each n less or 0, n frames flushed, and every other register, memory, framebuffer, stack and I as at the start. (44_keys_timers.md section 2; 92_eei_decisions.md D17) -/
def Obligations.KeyWaitEndsWithTheFirstKey : Prop :=
  ∀ (n : Nat) (x : RegIx) (k : Nibble) (p q : Ports) (rest : List Event) (s : State),
    s.running → fetch s = .ok (0xF#4 ++ x ++ 0x0A#8) → p.keyEvent = none → q.keyEvent = some k →
    s.env.events = (List.replicate n [Event.insn p, Event.tick]).flatten ++ Event.insn q :: rest →
    ∃ t, Sys2Proof.core.run (2 * n + 1) s = .next t ∧ (t.readV x).toNat = k.toNat ∧ t.wait = false ∧ t.pc = s.pc + 2 ∧
      t.dt.toNat = s.dt.toNat - n ∧ t.st.toNat = s.st.toNat - n ∧
      t.env.frames = List.replicate n s.fb ++ s.env.frames ∧ t.env.events = rest ∧
      (∀ r, r ≠ x → t.readV r = s.readV r) ∧
      t = { s with v := t.v, wait := t.wait, pc := t.pc, dt := t.dt, st := t.st, env := t.env }

/-- LD_Vx_DT reads DT, LD_DT_Vx and LD_ST_Vx write DT and ST, and the sound port follows ST. In every state the three complete with PC + 2: V[X] = DT, or DT = V[X], or ST = V[X]; after the last, sound_on holds exactly when V[X] is not 0; nothing else changes. Which pattern is which is the spec's own decision D25, sound_on its D26. (44_keys_timers.md section 3; 10_state.md section 12; 92_eei_decisions.md D25, D26) -/
def Obligations.TimerRegistersMove : Prop :=
  ∀ (x : RegIx) (s : State),
    (decodeWord (0xF#4 ++ x ++ 0x07#8) = .ldVxDt x ∧ ∃ t, exec (.ldVxDt x) s = .next t ∧
      t.readV x = s.dt ∧ t.pc = s.pc + 2 ∧ Frame [x] [] s t) ∧
    (decodeWord (0xF#4 ++ x ++ 0x15#8) = .ldDtVx x ∧ ∃ t, exec (.ldDtVx x) s = .next t ∧
      t.dt = s.readV x ∧ t.pc = s.pc + 2 ∧ Frame [] [.dt] s t) ∧
    (decodeWord (0xF#4 ++ x ++ 0x18#8) = .ldStVx x ∧ ∃ t, exec (.ldStVx x) s = .next t ∧
      t.st = s.readV x ∧ (t.soundOn = true ↔ (s.readV x).toNat ≠ 0) ∧ t.pc = s.pc + 2 ∧ Frame [] [.st] s t)

/-- An instruction that faults changes nothing but FAULT and records itself. For every instruction and every state with no fault standing: if it answers a state with a fault standing, that state differs from the state before in FAULT alone, the kind is the one kind the instruction can raise, the recorded pc is PC, the recorded opcode is the instruction's word, and an address is recorded exactly for MemRange. That a faulting multi-byte access writes nothing is the spec's own decision D5. (60_exceptions.md sections 2, 3 and 4; 92_eei_decisions.md D5, D7) -/
def Obligations.FaultsArePrecise : Prop :=
  ∀ (i : Instr) (s t : State), s.running → exec i s = .next t → ¬ t.running →
    t = { s with fault := t.fault } ∧ faultOf i = some t.fault.kind ∧ t.fault.pc = s.pc ∧ t.fault.opcode = some (encode i) ∧
      (t.fault.addr.isSome = true ↔ t.fault.kind = .memRange)

/-- I, the stack, DT, ST, WAIT, memory and the framebuffer are written only by the instructions the spec names. For every instruction that answers a state with no fault standing: I changes only by LD_I, ADD_I or LD_F; SP and STACK only by CALL or RET; DT only by LD_DT_Vx; ST only by LD_ST_Vx; WAIT only by LD_Vx_K; a memory byte only by LD_B or ST_block; a pixel only by CLS or DRW; and FAULT, the strap and the model's own fields by none. (10_state.md sections 3, 5, 6, 7, 8 and 9; 42_index_memory.md section 4) -/
def Obligations.OnlyTheNamedInstructionsWriteEachPart : Prop :=
  ∀ (i : Instr) (s t : State), s.running → exec i s = .next t → t.running → ∃ regs, Frame regs (partsOf i) s t

/-- A general register changes only if the instruction names it as destination or writes it as the flag. For every instruction and every state: if V[r] differs after it, r is X for an instruction that writes V[X], at most X for LD_block, or F for one of ADD_reg, SUB, SHR, SUBN, SHL and DRW. (10_state.md section 2) -/
def Obligations.OnlyDestinationRegistersChange : Prop :=
  ∀ (i : Instr) (s t : State) (r : RegIx), exec i s = .next t → writesReg i r = false → t.readV r = s.readV r

/-- What the key and random ports answer reaches the block only through SKP, SKNP, LD_Vx_K and RND. For every other instruction, two states that differ only in the port answers give next states that differ only in the port answers. (10_state.md section 12; 70_reset_and_hazards.md section 4) -/
def Obligations.PortsReachOnlyTheInputInstructions : Prop :=
  ∀ (i : Instr) (s t : State) (p : Ports), samplesPorts i = false → exec i s = .next t →
    exec i (s.withPorts p) = .next (t.withPorts p)

/-- From a jump to self every event but reset leaves all but the timers as they are. From a finished state, any number of steps with no reset event answers a finished state in which every register, I, PC, the stack, WAIT, the fault record, memory and the framebuffer are as before and DT and ST are no higher. The definition of finished is the spec's own decision D30. (70_reset_and_hazards.md section 7; 92_eei_decisions.md D30) -/
def Obligations.FinishedProgramStaysFinished : Prop :=
  ∀ (n : Nat) (s : State), s.finished → (∀ rom, Event.reset rom ∉ s.env.events) →
    ∃ t, Sys2Proof.core.run n s = .next t ∧ t.finished ∧ t = { s with dt := t.dt, st := t.st, env := t.env } ∧
      t.dt.toNat ≤ s.dt.toNat ∧ t.st.toNat ≤ s.st.toNat
end

