-- ==== Sys2Proof/Laws/Decode.lean ====
section
/-! SUPPORT. The fields of a word in each format, what a row's mask tests, and the decoder on each row (30_encoding.md R71 to R77). -/

namespace Sys2Proof

/-- The opcode class (R71). -/
def fieldClass (w : Word) : Nibble := w.extractLsb' 12 4

/-! ### Words and fields as numbers -/

theorem append_toNat {m n : Nat} (a : BitVec m) (b : BitVec n) : (a ++ b).toNat = 2 ^ n * a.toNat + b.toNat := by
  rw [BitVec.toNat_append, Nat.shiftLeft_eq, Nat.mul_comm, ← Nat.two_pow_add_eq_or_of_lt b.isLt]

theorem formatNNN_toNat (c : Nibble) (n : Addr12) : (formatNNN c n).toNat = 4096 * c.toNat + n.toNat := by
  simp only [formatNNN, append_toNat]; omega

theorem formatXNN_toNat (c : Nibble) (x : RegIx) (nn : Byte) :
    (formatXNN c x nn).toNat = 4096 * c.toNat + 256 * x.toNat + nn.toNat := by
  simp only [formatXNN, append_toNat]; omega

theorem formatXYN_toNat (c : Nibble) (x y : RegIx) (n : Nibble) :
    (formatXYN c x y n).toNat = 4096 * c.toNat + 256 * x.toNat + 16 * y.toNat + n.toNat := by
  simp only [formatXYN, append_toNat]; omega

theorem field_toNat (w : Word) (lo len : Nat) : (w.extractLsb' lo len).toNat = w.toNat / 2 ^ lo % 2 ^ len := by
  simp [BitVec.extractLsb'_toNat, Nat.shiftRight_eq_div_pow]

theorem fieldClass_toNat (w : Word) : (fieldClass w).toNat = w.toNat / 4096 := by
  have := w.isLt
  simp only [fieldClass, field_toNat]; omega
theorem fieldX_toNat (w : Word) : (fieldX w).toNat = w.toNat / 256 % 16 := field_toNat w 8 4
theorem fieldY_toNat (w : Word) : (fieldY w).toNat = w.toNat / 16 % 16 := field_toNat w 4 4
theorem fieldN_toNat (w : Word) : (fieldN w).toNat = w.toNat % 16 := by simp [fieldN]
theorem fieldNN_toNat (w : Word) : (fieldNN w).toNat = w.toNat % 256 := by simp [fieldNN]
theorem fieldNNN_toNat (w : Word) : (fieldNNN w).toNat = w.toNat % 4096 := by simp [fieldNNN]

/-! ### The fields of each format, and a word from its fields -/

section Fields
variable (c : Nibble) (x y : RegIx) (n : Nibble) (nn : Byte) (nnn : Addr12) (w : Word)

@[simp] theorem fieldClass_NNN : fieldClass (formatNNN c nnn) = c := by
  have := nnn.isLt
  apply BitVec.eq_of_toNat_eq; rw [fieldClass_toNat, formatNNN_toNat]; omega
@[simp] theorem fieldNNN_NNN : fieldNNN (formatNNN c nnn) = nnn := by
  have := nnn.isLt
  apply BitVec.eq_of_toNat_eq; rw [fieldNNN_toNat, formatNNN_toNat]; omega

@[simp] theorem fieldClass_XNN : fieldClass (formatXNN c x nn) = c := by
  have := nn.isLt; have := x.isLt
  apply BitVec.eq_of_toNat_eq; rw [fieldClass_toNat, formatXNN_toNat]; omega
@[simp] theorem fieldX_XNN : fieldX (formatXNN c x nn) = x := by
  have := nn.isLt; have := x.isLt
  apply BitVec.eq_of_toNat_eq; rw [fieldX_toNat, formatXNN_toNat]; omega
@[simp] theorem fieldNN_XNN : fieldNN (formatXNN c x nn) = nn := by
  have := nn.isLt; have := x.isLt
  apply BitVec.eq_of_toNat_eq; rw [fieldNN_toNat, formatXNN_toNat]; omega

@[simp] theorem fieldClass_XYN : fieldClass (formatXYN c x y n) = c := by
  have := n.isLt; have := x.isLt; have := y.isLt
  apply BitVec.eq_of_toNat_eq; rw [fieldClass_toNat, formatXYN_toNat]; omega
@[simp] theorem fieldX_XYN : fieldX (formatXYN c x y n) = x := by
  have := n.isLt; have := x.isLt; have := y.isLt
  apply BitVec.eq_of_toNat_eq; rw [fieldX_toNat, formatXYN_toNat]; omega
@[simp] theorem fieldY_XYN : fieldY (formatXYN c x y n) = y := by
  have := n.isLt; have := x.isLt; have := y.isLt
  apply BitVec.eq_of_toNat_eq; rw [fieldY_toNat, formatXYN_toNat]; omega
@[simp] theorem fieldN_XYN : fieldN (formatXYN c x y n) = n := by
  have := n.isLt; have := x.isLt; have := y.isLt
  apply BitVec.eq_of_toNat_eq; rw [fieldN_toNat, formatXYN_toNat]; omega

theorem formatNNN_fields : formatNNN (fieldClass w) (fieldNNN w) = w := by
  apply BitVec.eq_of_toNat_eq; rw [formatNNN_toNat, fieldClass_toNat, fieldNNN_toNat]; omega
theorem formatXNN_fields : formatXNN (fieldClass w) (fieldX w) (fieldNN w) = w := by
  apply BitVec.eq_of_toNat_eq; rw [formatXNN_toNat, fieldClass_toNat, fieldX_toNat, fieldNN_toNat]; omega
theorem formatXYN_fields : formatXYN (fieldClass w) (fieldX w) (fieldY w) (fieldN w) = w := by
  apply BitVec.eq_of_toNat_eq
  rw [formatXYN_toNat, fieldClass_toNat, fieldX_toNat, fieldY_toNat, fieldN_toNat]; omega

/-! ### What the four masks of R76 test -/

theorem formatNNN_and (c' : Nibble) (nnn' : Addr12) :
    formatNNN c nnn &&& formatNNN c' nnn' = formatNNN (c &&& c') (nnn &&& nnn') :=
  BitVec.and_append
theorem formatXNN_and (c' : Nibble) (x' : RegIx) (nn' : Byte) :
    formatXNN c x nn &&& formatXNN c' x' nn' = formatXNN (c &&& c') (x &&& x') (nn &&& nn') :=
  BitVec.and_append.trans (congrArg (· ++ (nn &&& nn')) BitVec.and_append)
theorem formatXYN_and (c' : Nibble) (x' y' : RegIx) (n' : Nibble) :
    formatXYN c x y n &&& formatXYN c' x' y' n' = formatXYN (c &&& c') (x &&& x') (y &&& y') (n &&& n') :=
  BitVec.and_append.trans (congrArg (· ++ (n &&& n'))
    (BitVec.and_append.trans (congrArg (· ++ (y &&& y')) BitVec.and_append)))

theorem nibble_and_F : ∀ c : Nibble, c &&& 0xF#4 = c := by decide
theorem byte_and_FF (b : Byte) : b &&& 0xFF#8 = b := BitVec.and_allOnes

theorem mask_class : w &&& (0xF000 : Word) = formatNNN (fieldClass w) 0#12 := by
  conv_lhs => rw [← formatNNN_fields w]
  rw [show (0xF000 : Word) = formatNNN 0xF#4 0#12 from rfl, formatNNN_and, nibble_and_F, BitVec.and_zero]
theorem mask_class_low4 : w &&& (0xF00F : Word) = formatXYN (fieldClass w) 0#4 0#4 (fieldN w) := by
  conv_lhs => rw [← formatXYN_fields w]
  rw [show (0xF00F : Word) = formatXYN 0xF#4 0#4 0#4 0xF#4 from rfl, formatXYN_and, nibble_and_F, nibble_and_F, BitVec.and_zero,
    BitVec.and_zero]
theorem mask_class_low8 : w &&& (0xF0FF : Word) = formatXNN (fieldClass w) 0#4 (fieldNN w) := by
  conv_lhs => rw [← formatXNN_fields w]
  rw [show (0xF0FF : Word) = formatXNN 0xF#4 0#4 0xFF#8 from rfl, formatXNN_and, nibble_and_F, byte_and_FF, BitVec.and_zero]
theorem mask_all : w &&& (0xFFFF : Word) = w := BitVec.and_allOnes

end Fields

theorem formatNNN_inj {c c' : Nibble} {n n' : Addr12} : formatNNN c n = formatNNN c' n' ↔ c = c' ∧ n = n' :=
  ⟨fun h => ⟨by simpa using congrArg fieldClass h, by simpa using congrArg fieldNNN h⟩, fun h => by rw [h.1, h.2]⟩
theorem formatXNN_inj {c c' : Nibble} {x x' : RegIx} {n n' : Byte} :
    formatXNN c x n = formatXNN c' x' n' ↔ c = c' ∧ x = x' ∧ n = n' :=
  ⟨fun h => ⟨by simpa using congrArg fieldClass h, by simpa using congrArg fieldX h, by simpa using congrArg fieldNN h⟩,
   fun h => by rw [h.1, h.2.1, h.2.2]⟩
theorem formatXYN_inj {c c' : Nibble} {x x' y y' : RegIx} {n n' : Nibble} :
    formatXYN c x y n = formatXYN c' x' y' n' ↔ c = c' ∧ x = x' ∧ y = y' ∧ n = n' :=
  ⟨fun h => ⟨by simpa using congrArg fieldClass h, by simpa using congrArg fieldX h, by simpa using congrArg fieldY h,
    by simpa using congrArg fieldN h⟩, fun h => by rw [h.1, h.2.1, h.2.2.1, h.2.2.2]⟩

/-- A row of mask 0xF000 is its class. -/
theorem matches_class (w : Word) (c : Nibble) (b : Word) (f : Word → Instr) (hb : b = formatNNN c 0#12) :
    (OpRow.mk 0xF000 b f).matches w = decide (fieldClass w = c) := by
  subst hb
  simp only [OpRow.matches, mask_class, beq_eq_decide, formatNNN_inj, and_true]

/-- A row of mask 0xF00F is its class and low nibble. -/
theorem matches_low4 (w : Word) (c n : Nibble) (b : Word) (f : Word → Instr) (hb : b = formatXYN c 0#4 0#4 n) :
    (OpRow.mk 0xF00F b f).matches w = decide (fieldClass w = c ∧ fieldN w = n) := by
  subst hb
  simp only [OpRow.matches, mask_class_low4, beq_eq_decide, formatXYN_inj, true_and]

/-- A row of mask 0xF0FF is its class and low byte. -/
theorem matches_low8 (w : Word) (c : Nibble) (n : Byte) (b : Word) (f : Word → Instr) (hb : b = formatXNN c 0#4 n) :
    (OpRow.mk 0xF0FF b f).matches w = decide (fieldClass w = c ∧ fieldNN w = n) := by
  subst hb
  simp only [OpRow.matches, mask_class_low8, beq_eq_decide, formatXNN_inj, true_and]

/-- A row of mask 0xFFFF is one word, and so its class. -/
theorem matches_all (w b : Word) (f : Word → Instr) (hb : fieldClass b = 0#4) :
    (OpRow.mk 0xFFFF b f).matches w = decide (fieldClass w = 0#4 ∧ w = b) := by
  have : fieldClass w = 0#4 ∧ w = b ↔ w = b := ⟨fun h => h.2, fun h => ⟨h ▸ hb, h⟩⟩
  simp only [OpRow.matches, mask_all, beq_eq_decide, this]

/-- `assigned` by the fields it tests (R77). -/
theorem assigned_eq (w : Word) : assigned w =
    match fieldClass w with
    | 0x0#4 => w == 0x00E0#16 || w == 0x00EE#16
    | 0x5#4 => fieldN w == 0x0#4
    | 0x8#4 => (fieldN w).toNat ≤ 7 || fieldN w == 0xE#4
    | 0x9#4 => fieldN w == 0x0#4
    | 0xE#4 => fieldNN w == 0x9E#8 || fieldNN w == 0xA1#8
    | 0xF#4 => [0x07#8, 0x0A#8, 0x15#8, 0x18#8, 0x1E#8, 0x29#8, 0x33#8, 0x55#8, 0x65#8].contains (fieldNN w)
    | _ => true := rfl

/-- The first row of a list that a word is in, tried in order. -/
def firstRow (w : Word) : List OpRow → Instr
  | [] => .nop w
  | r :: rs => if r.matches w = true then r.build w else firstRow w rs

theorem decodeWord_eq_firstRow (w : Word) : decodeWord w = firstRow w opRows := by
  unfold decodeWord
  generalize opRows = rs
  induction rs with
  | nil => rfl
  | cons r rs ih =>
    rw [List.find?_cons, firstRow]
    cases h : r.matches w with
    | true => rfl
    | false => exact ih

/-- The decoder row by row: the class first, then the literal low bits. -/
theorem decodeWord_eq (w : Word) : decodeWord w =
    if fieldClass w = 0x0#4 ∧ w = 0x00E0 then .cls
    else if fieldClass w = 0x0#4 ∧ w = 0x00EE then .ret
    else if fieldClass w = 0x1#4 then .jp (fieldNNN w)
    else if fieldClass w = 0x2#4 then .call (fieldNNN w)
    else if fieldClass w = 0x3#4 then .seImm (fieldX w) (fieldNN w)
    else if fieldClass w = 0x4#4 then .sneImm (fieldX w) (fieldNN w)
    else if fieldClass w = 0x5#4 ∧ fieldN w = 0x0#4 then .seReg (fieldX w) (fieldY w)
    else if fieldClass w = 0x6#4 then .ldImm (fieldX w) (fieldNN w)
    else if fieldClass w = 0x7#4 then .addImm (fieldX w) (fieldNN w)
    else if fieldClass w = 0xA#4 then .ldI (fieldNNN w)
    else if fieldClass w = 0xB#4 then .jpV0 (fieldNNN w)
    else if fieldClass w = 0xC#4 then .rnd (fieldX w) (fieldNN w)
    else if fieldClass w = 0xD#4 then .drw (fieldX w) (fieldY w) (fieldN w)
    else if fieldClass w = 0x8#4 ∧ fieldN w = 0x0#4 then .ldReg (fieldX w) (fieldY w)
    else if fieldClass w = 0x8#4 ∧ fieldN w = 0x1#4 then .or (fieldX w) (fieldY w)
    else if fieldClass w = 0x8#4 ∧ fieldN w = 0x2#4 then .and (fieldX w) (fieldY w)
    else if fieldClass w = 0x8#4 ∧ fieldN w = 0x3#4 then .xor (fieldX w) (fieldY w)
    else if fieldClass w = 0x8#4 ∧ fieldN w = 0x4#4 then .addReg (fieldX w) (fieldY w)
    else if fieldClass w = 0x8#4 ∧ fieldN w = 0x5#4 then .sub (fieldX w) (fieldY w)
    else if fieldClass w = 0x8#4 ∧ fieldN w = 0x6#4 then .shr (fieldX w) (fieldY w)
    else if fieldClass w = 0x8#4 ∧ fieldN w = 0x7#4 then .subn (fieldX w) (fieldY w)
    else if fieldClass w = 0x8#4 ∧ fieldN w = 0xE#4 then .shl (fieldX w) (fieldY w)
    else if fieldClass w = 0x9#4 ∧ fieldN w = 0x0#4 then .sneReg (fieldX w) (fieldY w)
    else if fieldClass w = 0xE#4 ∧ fieldNN w = 0x9E#8 then .skp (fieldX w)
    else if fieldClass w = 0xE#4 ∧ fieldNN w = 0xA1#8 then .sknp (fieldX w)
    else if fieldClass w = 0xF#4 ∧ fieldNN w = 0x07#8 then .ldVxDt (fieldX w)
    else if fieldClass w = 0xF#4 ∧ fieldNN w = 0x0A#8 then .ldVxK (fieldX w)
    else if fieldClass w = 0xF#4 ∧ fieldNN w = 0x15#8 then .ldDtVx (fieldX w)
    else if fieldClass w = 0xF#4 ∧ fieldNN w = 0x18#8 then .ldStVx (fieldX w)
    else if fieldClass w = 0xF#4 ∧ fieldNN w = 0x1E#8 then .addI (fieldX w)
    else if fieldClass w = 0xF#4 ∧ fieldNN w = 0x29#8 then .ldF (fieldX w)
    else if fieldClass w = 0xF#4 ∧ fieldNN w = 0x33#8 then .ldB (fieldX w)
    else if fieldClass w = 0xF#4 ∧ fieldNN w = 0x55#8 then .stBlock (fieldX w)
    else if fieldClass w = 0xF#4 ∧ fieldNN w = 0x65#8 then .ldBlock (fieldX w)
    else .nop w := by
  simp only [decodeWord_eq_firstRow, opRows, rowsWide, rowsXY, rowsX, List.cons_append, List.nil_append, firstRow,
    decide_eq_true_eq,
    matches_all w 0x00E0 _ rfl,
    matches_all w 0x00EE _ rfl,
    matches_class w 0x1#4 0x1000 _ rfl,
    matches_class w 0x2#4 0x2000 _ rfl,
    matches_class w 0x3#4 0x3000 _ rfl,
    matches_class w 0x4#4 0x4000 _ rfl,
    matches_low4 w 0x5#4 0x0#4 0x5000 _ rfl,
    matches_class w 0x6#4 0x6000 _ rfl,
    matches_class w 0x7#4 0x7000 _ rfl,
    matches_class w 0xA#4 0xA000 _ rfl,
    matches_class w 0xB#4 0xB000 _ rfl,
    matches_class w 0xC#4 0xC000 _ rfl,
    matches_class w 0xD#4 0xD000 _ rfl,
    matches_low4 w 0x8#4 0x0#4 0x8000 _ rfl,
    matches_low4 w 0x8#4 0x1#4 0x8001 _ rfl,
    matches_low4 w 0x8#4 0x2#4 0x8002 _ rfl,
    matches_low4 w 0x8#4 0x3#4 0x8003 _ rfl,
    matches_low4 w 0x8#4 0x4#4 0x8004 _ rfl,
    matches_low4 w 0x8#4 0x5#4 0x8005 _ rfl,
    matches_low4 w 0x8#4 0x6#4 0x8006 _ rfl,
    matches_low4 w 0x8#4 0x7#4 0x8007 _ rfl,
    matches_low4 w 0x8#4 0xE#4 0x800E _ rfl,
    matches_low4 w 0x9#4 0x0#4 0x9000 _ rfl,
    matches_low8 w 0xE#4 0x9E#8 0xE09E _ rfl,
    matches_low8 w 0xE#4 0xA1#8 0xE0A1 _ rfl,
    matches_low8 w 0xF#4 0x07#8 0xF007 _ rfl,
    matches_low8 w 0xF#4 0x0A#8 0xF00A _ rfl,
    matches_low8 w 0xF#4 0x15#8 0xF015 _ rfl,
    matches_low8 w 0xF#4 0x18#8 0xF018 _ rfl,
    matches_low8 w 0xF#4 0x1E#8 0xF01E _ rfl,
    matches_low8 w 0xF#4 0x29#8 0xF029 _ rfl,
    matches_low8 w 0xF#4 0x33#8 0xF033 _ rfl,
    matches_low8 w 0xF#4 0x55#8 0xF055 _ rfl,
    matches_low8 w 0xF#4 0x65#8 0xF065 _ rfl]

end Sys2Proof
end

