-- ==== Sys2Proof/Laws/State.lean ====
section
/-! SUPPORT. One lemma per field per state update: what each shared operation writes, and that it leaves every other field. -/

namespace Sys2Proof.Machine.State

/-! ### `writeV` -/

@[simp] theorem writeV_v (s : State) (x : RegIx) (b : Byte) : (s.writeV x b).v = s.v.set x.toNat b x.isLt := rfl
@[simp] theorem writeV_i (s : State) (x : RegIx) (b : Byte) : (s.writeV x b).i = s.i := rfl
@[simp] theorem writeV_pc (s : State) (x : RegIx) (b : Byte) : (s.writeV x b).pc = s.pc := rfl
@[simp] theorem writeV_sp (s : State) (x : RegIx) (b : Byte) : (s.writeV x b).sp = s.sp := rfl
@[simp] theorem writeV_stack (s : State) (x : RegIx) (b : Byte) : (s.writeV x b).stack = s.stack := rfl
@[simp] theorem writeV_dt (s : State) (x : RegIx) (b : Byte) : (s.writeV x b).dt = s.dt := rfl
@[simp] theorem writeV_st (s : State) (x : RegIx) (b : Byte) : (s.writeV x b).st = s.st := rfl
@[simp] theorem writeV_wait (s : State) (x : RegIx) (b : Byte) : (s.writeV x b).wait = s.wait := rfl
@[simp] theorem writeV_fault (s : State) (x : RegIx) (b : Byte) : (s.writeV x b).fault = s.fault := rfl
@[simp] theorem writeV_mem (s : State) (x : RegIx) (b : Byte) : (s.writeV x b).mem = s.mem := rfl
@[simp] theorem writeV_fb (s : State) (x : RegIx) (b : Byte) : (s.writeV x b).fb = s.fb := rfl
@[simp] theorem writeV_shiftSrc (s : State) (x : RegIx) (b : Byte) : (s.writeV x b).shiftSrc = s.shiftSrc := rfl
@[simp] theorem writeV_env (s : State) (x : RegIx) (b : Byte) : (s.writeV x b).env = s.env := rfl

/-! ### `setI` -/

@[simp] theorem setI_v (s : State) (a : Word) : (s.setI a).v = s.v := rfl
@[simp] theorem setI_i (s : State) (a : Word) : (s.setI a).i = a := rfl
@[simp] theorem setI_pc (s : State) (a : Word) : (s.setI a).pc = s.pc := rfl
@[simp] theorem setI_sp (s : State) (a : Word) : (s.setI a).sp = s.sp := rfl
@[simp] theorem setI_stack (s : State) (a : Word) : (s.setI a).stack = s.stack := rfl
@[simp] theorem setI_dt (s : State) (a : Word) : (s.setI a).dt = s.dt := rfl
@[simp] theorem setI_st (s : State) (a : Word) : (s.setI a).st = s.st := rfl
@[simp] theorem setI_wait (s : State) (a : Word) : (s.setI a).wait = s.wait := rfl
@[simp] theorem setI_fault (s : State) (a : Word) : (s.setI a).fault = s.fault := rfl
@[simp] theorem setI_mem (s : State) (a : Word) : (s.setI a).mem = s.mem := rfl
@[simp] theorem setI_fb (s : State) (a : Word) : (s.setI a).fb = s.fb := rfl
@[simp] theorem setI_shiftSrc (s : State) (a : Word) : (s.setI a).shiftSrc = s.shiftSrc := rfl
@[simp] theorem setI_env (s : State) (a : Word) : (s.setI a).env = s.env := rfl

/-! ### `setPc` -/

@[simp] theorem setPc_v (s : State) (a : Word) : (s.setPc a).v = s.v := rfl
@[simp] theorem setPc_i (s : State) (a : Word) : (s.setPc a).i = s.i := rfl
@[simp] theorem setPc_pc (s : State) (a : Word) : (s.setPc a).pc = a := rfl
@[simp] theorem setPc_sp (s : State) (a : Word) : (s.setPc a).sp = s.sp := rfl
@[simp] theorem setPc_stack (s : State) (a : Word) : (s.setPc a).stack = s.stack := rfl
@[simp] theorem setPc_dt (s : State) (a : Word) : (s.setPc a).dt = s.dt := rfl
@[simp] theorem setPc_st (s : State) (a : Word) : (s.setPc a).st = s.st := rfl
@[simp] theorem setPc_wait (s : State) (a : Word) : (s.setPc a).wait = s.wait := rfl
@[simp] theorem setPc_fault (s : State) (a : Word) : (s.setPc a).fault = s.fault := rfl
@[simp] theorem setPc_mem (s : State) (a : Word) : (s.setPc a).mem = s.mem := rfl
@[simp] theorem setPc_fb (s : State) (a : Word) : (s.setPc a).fb = s.fb := rfl
@[simp] theorem setPc_shiftSrc (s : State) (a : Word) : (s.setPc a).shiftSrc = s.shiftSrc := rfl
@[simp] theorem setPc_env (s : State) (a : Word) : (s.setPc a).env = s.env := rfl

/-! ### `advance` -/

@[simp] theorem advance_v (s : State) (n : Word) : (s.advance n).v = s.v := rfl
@[simp] theorem advance_i (s : State) (n : Word) : (s.advance n).i = s.i := rfl
@[simp] theorem advance_pc (s : State) (n : Word) : (s.advance n).pc = s.pc + n := rfl
@[simp] theorem advance_sp (s : State) (n : Word) : (s.advance n).sp = s.sp := rfl
@[simp] theorem advance_stack (s : State) (n : Word) : (s.advance n).stack = s.stack := rfl
@[simp] theorem advance_dt (s : State) (n : Word) : (s.advance n).dt = s.dt := rfl
@[simp] theorem advance_st (s : State) (n : Word) : (s.advance n).st = s.st := rfl
@[simp] theorem advance_wait (s : State) (n : Word) : (s.advance n).wait = s.wait := rfl
@[simp] theorem advance_fault (s : State) (n : Word) : (s.advance n).fault = s.fault := rfl
@[simp] theorem advance_mem (s : State) (n : Word) : (s.advance n).mem = s.mem := rfl
@[simp] theorem advance_fb (s : State) (n : Word) : (s.advance n).fb = s.fb := rfl
@[simp] theorem advance_shiftSrc (s : State) (n : Word) : (s.advance n).shiftSrc = s.shiftSrc := rfl
@[simp] theorem advance_env (s : State) (n : Word) : (s.advance n).env = s.env := rfl

/-! ### `skipIf` -/

@[simp] theorem skipIf_v (s : State) (c : Bool) : (s.skipIf c).v = s.v := rfl
@[simp] theorem skipIf_i (s : State) (c : Bool) : (s.skipIf c).i = s.i := rfl
@[simp] theorem skipIf_pc (s : State) (c : Bool) : (s.skipIf c).pc = s.pc + if c then 4 else 2 := rfl
@[simp] theorem skipIf_sp (s : State) (c : Bool) : (s.skipIf c).sp = s.sp := rfl
@[simp] theorem skipIf_stack (s : State) (c : Bool) : (s.skipIf c).stack = s.stack := rfl
@[simp] theorem skipIf_dt (s : State) (c : Bool) : (s.skipIf c).dt = s.dt := rfl
@[simp] theorem skipIf_st (s : State) (c : Bool) : (s.skipIf c).st = s.st := rfl
@[simp] theorem skipIf_wait (s : State) (c : Bool) : (s.skipIf c).wait = s.wait := rfl
@[simp] theorem skipIf_fault (s : State) (c : Bool) : (s.skipIf c).fault = s.fault := rfl
@[simp] theorem skipIf_mem (s : State) (c : Bool) : (s.skipIf c).mem = s.mem := rfl
@[simp] theorem skipIf_fb (s : State) (c : Bool) : (s.skipIf c).fb = s.fb := rfl
@[simp] theorem skipIf_shiftSrc (s : State) (c : Bool) : (s.skipIf c).shiftSrc = s.shiftSrc := rfl
@[simp] theorem skipIf_env (s : State) (c : Bool) : (s.skipIf c).env = s.env := rfl

/-! ### `raise` -/

@[simp] theorem raise_v (s : State) (k : FaultKind) (o a : Option Word) : (s.raise k o a).v = s.v := rfl
@[simp] theorem raise_i (s : State) (k : FaultKind) (o a : Option Word) : (s.raise k o a).i = s.i := rfl
@[simp] theorem raise_pc (s : State) (k : FaultKind) (o a : Option Word) : (s.raise k o a).pc = s.pc := rfl
@[simp] theorem raise_sp (s : State) (k : FaultKind) (o a : Option Word) : (s.raise k o a).sp = s.sp := rfl
@[simp] theorem raise_stack (s : State) (k : FaultKind) (o a : Option Word) : (s.raise k o a).stack = s.stack := rfl
@[simp] theorem raise_dt (s : State) (k : FaultKind) (o a : Option Word) : (s.raise k o a).dt = s.dt := rfl
@[simp] theorem raise_st (s : State) (k : FaultKind) (o a : Option Word) : (s.raise k o a).st = s.st := rfl
@[simp] theorem raise_wait (s : State) (k : FaultKind) (o a : Option Word) : (s.raise k o a).wait = s.wait := rfl
@[simp] theorem raise_fault (s : State) (k : FaultKind) (o a : Option Word) : (s.raise k o a).fault = { kind := k, pc := s.pc, opcode := o, addr := a } := rfl
@[simp] theorem raise_mem (s : State) (k : FaultKind) (o a : Option Word) : (s.raise k o a).mem = s.mem := rfl
@[simp] theorem raise_fb (s : State) (k : FaultKind) (o a : Option Word) : (s.raise k o a).fb = s.fb := rfl
@[simp] theorem raise_shiftSrc (s : State) (k : FaultKind) (o a : Option Word) : (s.raise k o a).shiftSrc = s.shiftSrc := rfl
@[simp] theorem raise_env (s : State) (k : FaultKind) (o a : Option Word) : (s.raise k o a).env = s.env := rfl

/-! ### `withPorts` -/

@[simp] theorem withPorts_v (s : State) (p : Ports) : (s.withPorts p).v = s.v := rfl
@[simp] theorem withPorts_i (s : State) (p : Ports) : (s.withPorts p).i = s.i := rfl
@[simp] theorem withPorts_pc (s : State) (p : Ports) : (s.withPorts p).pc = s.pc := rfl
@[simp] theorem withPorts_sp (s : State) (p : Ports) : (s.withPorts p).sp = s.sp := rfl
@[simp] theorem withPorts_stack (s : State) (p : Ports) : (s.withPorts p).stack = s.stack := rfl
@[simp] theorem withPorts_dt (s : State) (p : Ports) : (s.withPorts p).dt = s.dt := rfl
@[simp] theorem withPorts_st (s : State) (p : Ports) : (s.withPorts p).st = s.st := rfl
@[simp] theorem withPorts_wait (s : State) (p : Ports) : (s.withPorts p).wait = s.wait := rfl
@[simp] theorem withPorts_fault (s : State) (p : Ports) : (s.withPorts p).fault = s.fault := rfl
@[simp] theorem withPorts_mem (s : State) (p : Ports) : (s.withPorts p).mem = s.mem := rfl
@[simp] theorem withPorts_fb (s : State) (p : Ports) : (s.withPorts p).fb = s.fb := rfl
@[simp] theorem withPorts_shiftSrc (s : State) (p : Ports) : (s.withPorts p).shiftSrc = s.shiftSrc := rfl
@[simp] theorem withPorts_env (s : State) (p : Ports) : (s.withPorts p).env = { s.env with ports := p } := rfl

/-! ### `writeWithFlag` -/

@[simp] theorem writeWithFlag_v (s : State) (x : RegIx) (r : Byte × Byte) : (s.writeWithFlag x r).v = (s.v.set x.toNat r.1 x.isLt).set VF.toNat r.2 (by decide) := rfl
@[simp] theorem writeWithFlag_i (s : State) (x : RegIx) (r : Byte × Byte) : (s.writeWithFlag x r).i = s.i := rfl
@[simp] theorem writeWithFlag_pc (s : State) (x : RegIx) (r : Byte × Byte) : (s.writeWithFlag x r).pc = s.pc := rfl
@[simp] theorem writeWithFlag_sp (s : State) (x : RegIx) (r : Byte × Byte) : (s.writeWithFlag x r).sp = s.sp := rfl
@[simp] theorem writeWithFlag_stack (s : State) (x : RegIx) (r : Byte × Byte) : (s.writeWithFlag x r).stack = s.stack := rfl
@[simp] theorem writeWithFlag_dt (s : State) (x : RegIx) (r : Byte × Byte) : (s.writeWithFlag x r).dt = s.dt := rfl
@[simp] theorem writeWithFlag_st (s : State) (x : RegIx) (r : Byte × Byte) : (s.writeWithFlag x r).st = s.st := rfl
@[simp] theorem writeWithFlag_wait (s : State) (x : RegIx) (r : Byte × Byte) : (s.writeWithFlag x r).wait = s.wait := rfl
@[simp] theorem writeWithFlag_fault (s : State) (x : RegIx) (r : Byte × Byte) : (s.writeWithFlag x r).fault = s.fault := rfl
@[simp] theorem writeWithFlag_mem (s : State) (x : RegIx) (r : Byte × Byte) : (s.writeWithFlag x r).mem = s.mem := rfl
@[simp] theorem writeWithFlag_fb (s : State) (x : RegIx) (r : Byte × Byte) : (s.writeWithFlag x r).fb = s.fb := rfl
@[simp] theorem writeWithFlag_shiftSrc (s : State) (x : RegIx) (r : Byte × Byte) : (s.writeWithFlag x r).shiftSrc = s.shiftSrc := rfl
@[simp] theorem writeWithFlag_env (s : State) (x : RegIx) (r : Byte × Byte) : (s.writeWithFlag x r).env = s.env := rfl

/-! ### The widths of `PC` and `I` (00_scope.md R6) as literal bounds -/

theorem pc_lt (s : State) : s.pc.toNat < 65536 := s.pc.isLt
theorem i_lt (s : State) : s.i.toNat < 65536 := s.i.isLt

end Sys2Proof.Machine.State
end

