-- ==== Sys2Proof/Laws/Registers.lean ====
section
/-! SUPPORT. Registers and the call stack: a read after a write, and what a push and a pop do. -/

namespace Sys2Proof.Machine

theorem State.readV_writeV (s : State) (x y : RegIx) (b : Byte) :
    (s.writeV x b).readV y = if x = y then b else s.readV y := by
  simp only [State.readV, State.writeV, Vector.getElem_set, BitVec.toNat_inj]

@[simp] theorem State.readV_writeV_same (s : State) (x : RegIx) (b : Byte) : (s.writeV x b).readV x = b := by
  simp [State.readV_writeV]

theorem State.readV_writeV_ne (s : State) {x y : RegIx} (b : Byte) (h : x ≠ y) :
    (s.writeV x b).readV y = s.readV y := by
  simp [State.readV_writeV, h]

/-- Two register files that read the same are the same. -/
theorem State.v_ext {s t : State} (h : ∀ r, t.readV r = s.readV r) : t.v = s.v := by
  apply Vector.ext
  intro j hj
  have := h (BitVec.ofNat 4 j)
  simpa [State.readV, Nat.mod_eq_of_lt hj] using this

@[simp] theorem State.readV_setI (s : State) (a : Word) (r : RegIx) : (s.setI a).readV r = s.readV r := rfl
@[simp] theorem State.readV_setPc (s : State) (a : Word) (r : RegIx) : (s.setPc a).readV r = s.readV r := rfl
@[simp] theorem State.readV_advance (s : State) (n : Word) (r : RegIx) : (s.advance n).readV r = s.readV r := rfl
@[simp] theorem State.readV_skipIf (s : State) (c : Bool) (r : RegIx) : (s.skipIf c).readV r = s.readV r := rfl
@[simp] theorem State.readV_raise (s : State) (k : FaultKind) (o a : Option Word) (r : RegIx) :
    (s.raise k o a).readV r = s.readV r := rfl
@[simp] theorem State.readV_withPorts (s : State) (p : Ports) (r : RegIx) : (s.withPorts p).readV r = s.readV r := rfl

/-- The flag is written last (R10, R121): VF holds the flag whatever `x` is. -/
theorem State.readV_writeWithFlag (s : State) (x r : RegIx) (p : Byte × Byte) :
    (s.writeWithFlag x p).readV r = if r = VF then p.2 else if r = x then p.1 else s.readV r := by
  simp only [State.writeWithFlag, State.readV_writeV, eq_comm (b := r)]

/-- A block load writes exactly the registers from `k` on that it has bytes for. -/
theorem loadFrom_get (bs : List Byte) (v : Vector Byte 16) (k j : Nat) (hj : j < 16) :
    (loadFrom v k bs)[j] = if k ≤ j ∧ j < k + bs.length then bs.getD (j - k) 0 else v[j] := by
  induction bs generalizing v k with
  | nil => simp only [loadFrom, List.length_nil, Nat.add_zero]; rw [if_neg (by omega)]
  | cons b bs ih =>
    simp only [loadFrom, ih, List.length_cons, Vector.getElem_setIfInBounds]
    by_cases h1 : k + 1 ≤ j ∧ j < k + 1 + bs.length
    · rw [if_pos h1, if_pos (by omega), show j - k = (j - (k + 1)) + 1 by omega, List.getD_cons_succ]
    · rw [if_neg h1]
      by_cases h2 : k = j
      · subst h2; simp
      · rw [if_neg h2, if_neg (by omega)]

/-- A push answers exactly when the stack is not full, and writes `STACK[SP]` and `SP` only (R93, R26). -/
theorem State.push_eq_some {s t : State} {a : Word} :
    s.push a = some t ↔
      ∃ h : s.sp.val < 16, t = { s with stack := s.stack.set s.sp.val a h, sp := ⟨s.sp.val + 1, Nat.succ_lt_succ h⟩ } := by
  unfold State.push
  split
  · rename_i h
    exact ⟨fun e => ⟨h, (Option.some.inj e).symm⟩, fun ⟨_, e⟩ => by rw [e]⟩
  · rename_i h
    exact ⟨fun e => by simp at e, fun ⟨h', _⟩ => absurd h' h⟩

/-- The depth of the call stack as a literal bound (R25). -/
theorem State.sp_le (s : State) : s.sp.val ≤ 16 := Nat.le_of_lt_succ s.sp.isLt

theorem State.push_eq_none {s : State} {a : Word} : s.push a = none ↔ s.sp.val = 16 := by
  unfold State.push
  split
  · rename_i h
    exact ⟨fun e => by simp at e, fun e => absurd e (Nat.ne_of_lt h)⟩
  · rename_i h
    exact ⟨fun _ => Nat.le_antisymm s.sp_le (Nat.le_of_not_lt h), fun _ => rfl⟩

/-- A pop answers exactly when the stack is not empty, with the top entry, and writes `SP` only (R91, R26). -/
theorem State.pop_eq_some {s t : State} {a : Word} :
    s.pop = some (a, t) ↔
      ∃ h : 0 < s.sp.val, a = s.stack[s.sp.val - 1]'(by omega) ∧ t = { s with sp := ⟨s.sp.val - 1, by omega⟩ } := by
  unfold State.pop
  split
  · rename_i h
    constructor
    · intro e
      simp only [Option.some.injEq, Prod.mk.injEq] at e
      exact ⟨h, e.1.symm, e.2.symm⟩
    · rintro ⟨_, rfl, rfl⟩; rfl
  · rename_i h
    exact ⟨fun e => by simp at e, fun ⟨h', _⟩ => absurd h' h⟩

theorem State.pop_eq_none {s : State} : s.pop = none ↔ s.sp.val = 0 := by
  unfold State.pop
  split
  · rename_i h
    exact ⟨fun e => by simp at e, fun e => absurd e (Nat.ne_of_gt h)⟩
  · rename_i h
    exact ⟨fun _ => Nat.eq_zero_of_not_pos h, fun _ => rfl⟩

end Sys2Proof.Machine
end

