-- ==== Sys2Proof/Laws/Flags.lean ====
section
/-! SUPPORT. The flag computations as arithmetic on naturals (41_alu.md R116 to R120), and the operand forms. -/

namespace Sys2Proof.Machine

theorem flagByte_toNat (c : Bool) : (flagByte c).toNat = if c then 1 else 0 := by cases c <;> rfl

theorem flagByte_eq_one (c : Bool) : flagByte c = 1 ↔ c = true := by cases c <;> decide

/-- R116: the sum modulo 256, and 1 exactly when it exceeds 255. -/
theorem addWithCarry_result (a b : Byte) : (addWithCarry a b).1.toNat = (a.toNat + b.toNat) % 256 := by
  have := a.isLt; have := b.isLt
  simp [addWithCarry, BitVec.extractLsb'_toNat]

theorem addWithCarry_flag (a b : Byte) : (addWithCarry a b).2.toNat = if a.toNat + b.toNat > 255 then 1 else 0 := by
  have := a.isLt; have := b.isLt
  simp [addWithCarry, BitVec.extractLsb'_toNat, Nat.shiftRight_eq_div_pow]
  split <;> omega

/-- R117: the difference modulo 256, and 1 exactly when no borrow is needed. -/
theorem subNoBorrow_result (a b : Byte) : (subNoBorrow a b).1.toNat = (a.toNat + 256 - b.toNat) % 256 := by
  simp [subNoBorrow]

theorem subNoBorrow_flag (a b : Byte) : (subNoBorrow a b).2.toNat = if a.toNat ≥ b.toNat then 1 else 0 := by
  simp [subNoBorrow, flagByte_toNat]

/-- R118: half of the byte, and its bit 0. -/
theorem shiftRight_result (b : Byte) : (shiftRight b).1.toNat = b.toNat / 2 := by
  simp [shiftRight, Nat.shiftRight_eq_div_pow]

theorem shiftRight_flag (b : Byte) : (shiftRight b).2.toNat = b.toNat % 2 := by
  simp only [shiftRight, flagByte_toNat, BitVec.getLsbD, Nat.testBit_zero, decide_eq_true_eq]
  split <;> omega

/-- R120: twice the byte modulo 256, and its bit 7. -/
theorem shiftLeft_result (b : Byte) : (shiftLeft b).1.toNat = 2 * b.toNat % 256 := by
  simp [shiftLeft, Nat.shiftLeft_eq, Nat.mul_comm]

theorem shiftLeft_flag (b : Byte) : (shiftLeft b).2.toNat = b.toNat / 128 := by
  have := b.isLt
  simp only [shiftLeft, flagByte_toNat, BitVec.getLsbD, Nat.testBit_eq_decide_div_mod_eq, decide_eq_true_eq]
  split <;> omega

/-! ### Operand forms -/

theorem zextAddr_toNat (nnn : Addr12) : (zextAddr nnn).toNat = nnn.toNat := by
  have := nnn.isLt
  simp [zextAddr]; omega

theorem zextByte_toNat (b : Byte) : (zextByte b).toNat = b.toNat := by
  have := b.isLt
  simp [zextByte]; omega

theorem lowNibble_toNat (b : Byte) : (lowNibble b).toNat = b.toNat % 16 := by
  simp [lowNibble, BitVec.extractLsb'_toNat]

theorem glyphAddress_toNat (d : Nibble) : (glyphAddress d).toNat = 5 * d.toNat := by
  have := d.isLt
  simp only [glyphAddress, Config.fontBase, Config.glyphStride, BitVec.toNat_ofNat]
  omega

@[simp] theorem length_bcdDigits (b : Byte) : (bcdDigits b).length = 3 := rfl

/-- R133: the three digits are decimal digits and spell the byte. -/
theorem bcdDigits_spell (b : Byte) :
    ∃ h t o : Byte, bcdDigits b = [h, t, o] ∧ h.toNat = b.toNat / 100 ∧ t.toNat = b.toNat / 10 % 10 ∧ o.toNat = b.toNat % 10 ∧
      100 * h.toNat + 10 * t.toNat + o.toNat = b.toNat := by
  have := b.isLt
  refine ⟨_, _, _, rfl, ?_, ?_, ?_, ?_⟩ <;> simp only [BitVec.toNat_ofNat] <;> omega

@[simp] theorem State.length_regsUpTo (s : State) (x : RegIx) : (s.regsUpTo x).length = x.toNat + 1 := by
  have := x.isLt
  simp [State.regsUpTo]; omega

/-- R134: entry `k` of the block is `V[k]`. -/
theorem State.getD_regsUpTo (s : State) (x r : RegIx) (h : r.toNat ≤ x.toNat) : (s.regsUpTo x).getD r.toNat 0 = s.readV r := by
  have := r.isLt
  simp [State.regsUpTo, List.getD_eq_getElem?_getD, Nat.lt_succ_of_le h, State.readV, this]

end Sys2Proof.Machine
end

