-- ==== Sys2Proof/Laws/Frame.lean ====
section
/-! SUPPORT. What each shared operation leaves alone, as a `Frame`, and how frames compose. -/

namespace Sys2Proof.Machine

/-- The general registers are read from the field `v` alone. -/
theorem State.readV_congr {s t : State} (h : t.v = s.v) (r : RegIx) : t.readV r = s.readV r := by
  simp only [State.readV, h]

theorem Frame.refl (s : State) : Frame [] [] s s :=
  ⟨fun _ _ => rfl, fun _ => rfl, fun _ => ⟨rfl, rfl⟩, fun _ => rfl, fun _ => rfl, fun _ => rfl, fun _ => rfl, fun _ _ => rfl,
   fun _ _ _ => rfl, ⟨rfl, rfl⟩⟩

/-- What two operations in a row may write is what either may write. -/
theorem Frame.trans {r₁ r₂ : List RegIx} {p₁ p₂ : List Part} {s t u : State} (h₁ : Frame r₁ p₁ s t) (h₂ : Frame r₂ p₂ t u) :
    Frame (r₁ ++ r₂) (p₁ ++ p₂) s u where
  regs r h := (h₂.regs r fun m => h (List.mem_append_right _ m)).trans (h₁.regs r fun m => h (List.mem_append_left _ m))
  i h := (h₂.i fun m => h (List.mem_append_right _ m)).trans (h₁.i fun m => h (List.mem_append_left _ m))
  stack h :=
    have a := h₁.stack fun m => h (List.mem_append_left _ m)
    have b := h₂.stack fun m => h (List.mem_append_right _ m)
    ⟨b.1.trans a.1, b.2.trans a.2⟩
  dt h := (h₂.dt fun m => h (List.mem_append_right _ m)).trans (h₁.dt fun m => h (List.mem_append_left _ m))
  st h := (h₂.st fun m => h (List.mem_append_right _ m)).trans (h₁.st fun m => h (List.mem_append_left _ m))
  wait h := (h₂.wait fun m => h (List.mem_append_right _ m)).trans (h₁.wait fun m => h (List.mem_append_left _ m))
  fault h := (h₂.fault fun m => h (List.mem_append_right _ m)).trans (h₁.fault fun m => h (List.mem_append_left _ m))
  mem h a := (h₂.mem (fun m => h (List.mem_append_right _ m)) a).trans (h₁.mem (fun m => h (List.mem_append_left _ m)) a)
  fb h y x := (h₂.fb (fun m => h (List.mem_append_right _ m)) y x).trans (h₁.fb (fun m => h (List.mem_append_left _ m)) y x)
  rest := ⟨h₂.rest.1.trans h₁.rest.1, h₂.rest.2.trans h₁.rest.2⟩

/-- A frame that allows more holds too. -/
theorem Frame.mono {r r' : List RegIx} {p p' : List Part} {s t : State} (h : Frame r p s t) (hr : ∀ x ∈ r, x ∈ r')
    (hp : ∀ x ∈ p, x ∈ p') : Frame r' p' s t where
  regs x hx := h.regs x fun m => hx (hr _ m)
  i hx := h.i fun m => hx (hp _ m)
  stack hx := h.stack fun m => hx (hp _ m)
  dt hx := h.dt fun m => hx (hp _ m)
  st hx := h.st fun m => hx (hp _ m)
  wait hx := h.wait fun m => hx (hp _ m)
  fault hx := h.fault fun m => hx (hp _ m)
  mem hx := h.mem fun m => hx (hp _ m)
  fb hx := h.fb fun m => hx (hp _ m)
  rest := h.rest

theorem State.frame_setPc (s : State) (a : Word) : Frame [] [] s (s.setPc a) := by constructor <;> simp

theorem State.frame_advance (s : State) (n : Word) : Frame [] [] s (s.advance n) := by constructor <;> simp

theorem State.frame_skipIf (s : State) (c : Bool) : Frame [] [] s (s.skipIf c) := by constructor <;> simp

theorem State.frame_setI (s : State) (a : Word) : Frame [] [.i] s (s.setI a) := by constructor <;> simp

theorem State.frame_writeV (s : State) (x : RegIx) (b : Byte) : Frame [x] [] s (s.writeV x b) := by
  constructor <;> simp +contextual [State.readV_writeV, eq_comm]

theorem State.frame_writeWithFlag (s : State) (x : RegIx) (p : Byte × Byte) : Frame [x, VF] [] s (s.writeWithFlag x p) := by
  constructor <;> simp +contextual [State.readV_writeWithFlag]

end Sys2Proof.Machine
end

