-- ==== Sys2Proof/Laws/Framebuffer.lean ====
section
/-! SUPPORT. The sprite plot in closed form: which pixels it turns over, and when it hits (43_display.md R141). -/

namespace Sys2Proof.Machine

theorem FrameBuffer.ext_pixel {f g : FrameBuffer} (h : ∀ y x, f.pixel y x = g.pixel y x) : f = g := by
  apply Vector.ext; intro y hy
  apply Vector.ext; intro x hx
  exact h ⟨y, hy⟩ ⟨x, hx⟩

@[simp] theorem FrameBuffer.pixel_clear (y : Fin 32) (x : Fin 64) : FrameBuffer.clear.pixel y x = false := by
  simp [FrameBuffer.clear, FrameBuffer.pixel]

theorem FrameBuffer.pixel_flip (f : FrameBuffer) (y y' : Fin 32) (x x' : Fin 64) :
    (f.flip y x).pixel y' x' = if y = y' ∧ x = x' then !f.pixel y x else f.pixel y' x' := by
  simp only [FrameBuffer.flip, FrameBuffer.pixel, Vector.getElem_set, Fin.ext_iff]
  by_cases hy : y.val = y'.val
  · simp only [hy, if_true, Vector.getElem_set, true_and]
  · simp [hy]

/-! ### A list of plotted points -/

/-- Plotting a list of distinct points turns over exactly the listed ones, and hits exactly when one of them was set. -/
theorem plotPoints (pts : List (Nat × Nat)) (p : Plot)
    (hd : (pts.map fun q => (column q.1, row q.2)).Nodup) :
    (∀ y x, (pts.foldl (fun p q => plotPixel p q.1 q.2) p).1.pixel y x =
      (p.1.pixel y x ^^ decide ((x, y) ∈ pts.map fun q => (column q.1, row q.2)))) ∧
    ((pts.foldl (fun p q => plotPixel p q.1 q.2) p).2 =
      (p.2 || pts.any fun q => p.1.pixel (row q.2) (column q.1))) := by
  induction pts generalizing p with
  | nil => simp
  | cons q qs ih =>
    simp only [List.map_cons, List.nodup_cons] at hd
    obtain ⟨ih1, ih2⟩ := ih (plotPixel p q.1 q.2) hd.2
    constructor
    · intro y x
      rw [List.foldl_cons, ih1, List.map_cons]
      simp only [plotPixel, FrameBuffer.pixel_flip, List.mem_cons, Prod.mk.injEq]
      by_cases hq : row q.2 = y ∧ column q.1 = x
      · obtain ⟨rfl, rfl⟩ := hq
        simp [hd.1]
      · rw [if_neg hq]
        have : ¬ (x = column q.1 ∧ y = row q.2) := fun h => hq ⟨h.2.symm, h.1.symm⟩
        simp [this]
    · rw [List.foldl_cons, ih2, List.any_cons]
      simp only [plotPixel, Bool.or_assoc]
      congr 2
      rw [Bool.eq_iff_iff, List.any_eq_true, List.any_eq_true]
      refine exists_congr fun r => and_congr_right fun hr => ?_
      have hne : ¬ (row q.2 = row r.2 ∧ column q.1 = column r.1) := fun h =>
        hd.1 (List.mem_map.mpr ⟨r, hr, by rw [h.1, h.2]⟩)
      rw [FrameBuffer.pixel_flip, if_neg hne]

/-! ### The points of a sprite -/

/-- The columns of a sprite row's 1 bits, at row `y`. -/
def rowPoints (b : Byte) (x0 y : Nat) : List (Nat × Nat) :=
  ([0, 1, 2, 3, 4, 5, 6, 7].filter fun c => b.getLsbD (7 - c)).map fun c => (x0 + c, y)

/-- The points of a sprite's 1 bits, before wrap-around. -/
def spritePoints : List Byte → Nat → Nat → List (Nat × Nat)
  | [], _, _ => []
  | b :: bs, x0, y => rowPoints b x0 y ++ spritePoints bs x0 (y + 1)

theorem mem_rowPoints {b : Byte} {x0 y : Nat} {q : Nat × Nat} :
    q ∈ rowPoints b x0 y ↔ ∃ j < 8, b.getLsbD (7 - j) = true ∧ q = (x0 + j, y) := by
  have h8 : ∀ j, j ∈ [0, 1, 2, 3, 4, 5, 6, 7] ↔ j < 8 := by
    intro j; simp only [List.mem_cons, List.not_mem_nil, or_false]; omega
  simp only [rowPoints, List.mem_map, List.mem_filter, h8]
  exact ⟨fun ⟨j, ⟨h1, h2⟩, h3⟩ => ⟨j, h1, h2, h3.symm⟩, fun ⟨j, h1, h2, h3⟩ => ⟨j, ⟨h1, h2⟩, h3.symm⟩⟩

theorem mem_spritePoints {bs : List Byte} {x0 y : Nat} {q : Nat × Nat} :
    q ∈ spritePoints bs x0 y ↔
      ∃ k < bs.length, ∃ j < 8, (bs.getD k 0).getLsbD (7 - j) = true ∧ q = (x0 + j, y + k) := by
  induction bs generalizing y with
  | nil => simp [spritePoints]
  | cons b bs ih =>
    simp only [spritePoints, List.mem_append, mem_rowPoints, ih, List.length_cons]
    constructor
    · rintro (⟨j, hj, hb, rfl⟩ | ⟨k, hk, j, hj, hb, rfl⟩)
      · exact ⟨0, by omega, j, hj, hb, rfl⟩
      · exact ⟨k + 1, by omega, j, hj, by simpa using hb, by rw [Nat.add_assoc, Nat.add_comm 1 k]⟩
    · rintro ⟨k, hk, j, hj, hb, rfl⟩
      cases k with
      | zero => exact .inl ⟨j, hj, hb, rfl⟩
      | succ k => exact .inr ⟨k, by omega, j, hj, by simpa using hb, by rw [Nat.add_assoc, Nat.add_comm 1 k]⟩

theorem nodup_spritePoints (bs : List Byte) (x0 y : Nat) : (spritePoints bs x0 y).Nodup := by
  induction bs generalizing y with
  | nil => simp [spritePoints]
  | cons b bs ih =>
    rw [spritePoints, List.nodup_append]
    refine ⟨?_, ih (y + 1), ?_⟩
    · refine List.Nodup.map ?_ (List.Nodup.filter _ (by decide))
      intro a c h
      have := (Prod.mk.inj h).1
      omega
    · rintro q hq r hr rfl
      obtain ⟨j, -, -, rfl⟩ := mem_rowPoints.mp hq
      obtain ⟨k, -, j', -, -, h⟩ := mem_spritePoints.mp hr
      have := (Prod.mk.inj h).2
      omega

/-- R141 (d): no pixel is plotted twice by one sprite of at most 32 rows. -/
theorem nodup_pixels {bs : List Byte} (h : bs.length ≤ 32) (x0 y : Nat) :
    ((spritePoints bs x0 y).map fun q => (column q.1, row q.2)).Nodup := by
  refine List.Nodup.map_on ?_ (nodup_spritePoints bs x0 y)
  intro q hq r hr heq
  obtain ⟨k, hk, j, hj, -, rfl⟩ := mem_spritePoints.mp hq
  obtain ⟨k', hk', j', hj', -, rfl⟩ := mem_spritePoints.mp hr
  simp only [column, row, Config.fbW, Config.fbH, Prod.mk.injEq, Fin.mk.injEq] at heq ⊢
  omega

theorem plotRow_eq (p : Plot) (b : Byte) (x0 y : Nat) :
    plotRow p b x0 y = (rowPoints b x0 y).foldl (fun p q => plotPixel p q.1 q.2) p := by
  simp only [plotRow, rowPoints, List.foldl_map, List.foldl_filter]

theorem plotRows_eq (bs : List Byte) (p : Plot) (x0 y : Nat) :
    plotRows p bs x0 y = (spritePoints bs x0 y).foldl (fun p q => plotPixel p q.1 q.2) p := by
  induction bs generalizing p y with
  | nil => rfl
  | cons b bs ih => simp only [plotRows, spritePoints, List.foldl_append, ih, plotRow_eq]

theorem mem_pixels {bs : List Byte} {x0 y0 : Nat} {y : Fin 32} {x : Fin 64} :
    (x, y) ∈ (spritePoints bs x0 y0).map (fun q => (column q.1, row q.2)) ↔ coversPixel bs x0 y0 y x := by
  simp only [List.mem_map, mem_spritePoints, coversPixel, Prod.mk.injEq, column, row, Fin.ext_iff]
  constructor
  · rintro ⟨q, ⟨k, hk, j, hj, hb, rfl⟩, hx, hy⟩
    exact ⟨k, hk, j, hj, hb, hx, hy⟩
  · rintro ⟨k, hk, j, hj, hb, hx, hy⟩
    exact ⟨_, ⟨k, hk, j, hj, hb, rfl⟩, hx, hy⟩

/-- A drawn sprite turns over exactly the pixels it covers. -/
theorem drawSprite_pixel (fb : FrameBuffer) {bytes : List Byte} (h : bytes.length ≤ 32) (x0 y0 : Byte) (y : Fin 32) (x : Fin 64) :
    (coversPixel bytes x0.toNat y0.toNat y x → (drawSprite fb bytes x0 y0).1.pixel y x = !fb.pixel y x) ∧
    (¬ coversPixel bytes x0.toNat y0.toNat y x → (drawSprite fb bytes x0 y0).1.pixel y x = fb.pixel y x) := by
  have key := (plotPoints _ (fb, false) (nodup_pixels h x0.toNat y0.toNat)).1 y x
  rw [← plotRows_eq] at key
  rw [← drawSprite] at key
  constructor <;> intro hc <;> rw [key] <;> simp only [mem_pixels, hc, decide_true, decide_false, Bool.xor_true, Bool.xor_false]

/-- A drawn sprite hits exactly when it covers a pixel that was set. -/
theorem drawSprite_hit (fb : FrameBuffer) {bytes : List Byte} (h : bytes.length ≤ 32) (x0 y0 : Byte) :
    (drawSprite fb bytes x0 y0).2 = true ↔
      ∃ y x, coversPixel bytes x0.toNat y0.toNat y x ∧ fb.pixel y x = true := by
  have key := (plotPoints _ (fb, false) (nodup_pixels h x0.toNat y0.toNat)).2
  rw [← plotRows_eq, ← drawSprite] at key
  simp only [key, Bool.false_or, List.any_eq_true]
  constructor
  · rintro ⟨q, hq, hp⟩
    exact ⟨row q.2, column q.1, mem_pixels.mp (List.mem_map.mpr ⟨q, hq, rfl⟩), hp⟩
  · rintro ⟨y, x, hc, hp⟩
    obtain ⟨q, hq, he⟩ := List.mem_map.mp (mem_pixels.mpr hc)
    obtain ⟨rfl, rfl⟩ := Prod.mk.inj he
    exact ⟨q, hq, hp⟩

end Sys2Proof.Machine
end

