-- ==== Sys2Proof/Laws/Memory.lean ====
section
/-! SUPPORT. Memory: a read after a write, that every memory operation keeps the canonical form, and the range check. -/

namespace Sys2Proof.Machine

/-! ### Reads after writes -/

/-- The reset contents (R31, R35): the font, and 0x00 above it. -/
theorem Memory.initByte_font {a : Nat} (h : a < 80) : Memory.initByte a = Config.font.getD a 0 :=
  if_pos ⟨Nat.zero_le a, by simpa using h⟩

theorem Memory.initByte_above {a : Nat} (h : 80 ≤ a) : Memory.initByte a = 0 :=
  if_neg fun hc => by have := hc.2; simp at this; omega

theorem Memory.read_cons (b : Nat) (w : Byte) (rest : Memory) (a : Nat) :
    Memory.read ((b, w) :: rest) a = if b = a then w else Memory.read rest a := rfl

theorem Memory.read_erase (m : Memory) (a b : Nat) :
    (m.erase a).read b = if a = b then Memory.initByte b else m.read b := by
  induction m with
  | nil => simp [Memory.erase, Memory.read]
  | cons c rest ih =>
    obtain ⟨d, w⟩ := c
    simp only [Memory.erase] at ih ⊢
    by_cases hd : d = a
    · subst hd
      simp only [List.filter_cons, bne_self_eq_false, Bool.false_eq_true, if_false, ih, Memory.read_cons]
      split <;> rfl
    · simp only [List.filter_cons, bne_iff_ne, ne_eq, hd, not_false_eq_true, if_true, Memory.read_cons, ih]
      by_cases hb : a = b
      · subst hb; simp [hd]
      · simp [hb]

theorem Memory.read_insert (m : Memory) (a : Nat) (v : Byte) (b : Nat) (h : ∀ c ∈ m, c.1 ≠ a) :
    (m.insert a v).read b = if a = b then v else m.read b := by
  induction m with
  | nil => simp [Memory.insert, Memory.read]
  | cons c rest ih =>
    obtain ⟨d, w⟩ := c
    have hd : d ≠ a := h _ (List.mem_cons_self ..)
    simp only [Memory.insert]
    split
    · simp [Memory.read_cons]
    · rw [Memory.read_cons, ih (fun c hc => h c (List.mem_cons_of_mem _ hc)), Memory.read_cons]
      by_cases hb : a = b
      · subst hb; simp [hd]
      · simp [hb]

theorem Memory.erase_not_mem (m : Memory) (a : Nat) : ∀ c ∈ m.erase a, c.1 ≠ a := by
  intro c hc
  simpa using (List.mem_filter.mp hc).2

/-- A read after a write: the byte written at its address, and every other byte as before. -/
theorem Memory.read_write (m : Memory) (a : Nat) (v : Byte) (b : Nat) :
    (m.write a v).read b = if a = b then v else m.read b := by
  unfold Memory.write
  split
  · rename_i h
    rw [Memory.read_erase]
    split
    · rename_i hab; rw [h, hab]
    · rfl
  · rw [Memory.read_insert _ _ _ _ (m.erase_not_mem a), Memory.read_erase]
    split <;> simp_all

@[simp] theorem Memory.read_write_same (m : Memory) (a : Nat) (v : Byte) : (m.write a v).read a = v := by
  simp [Memory.read_write]

/-- A block write: byte `k` of the block at `base + k`, and every other byte as before. -/
theorem Memory.read_writeBlock (bs : List Byte) (m : Memory) (base a : Nat) :
    (m.writeBlock base bs).read a = if base ≤ a ∧ a < base + bs.length then bs.getD (a - base) 0 else m.read a := by
  induction bs generalizing m base with
  | nil => simp only [Memory.writeBlock, List.length_nil, Nat.add_zero]; rw [if_neg (by omega)]
  | cons b bs ih =>
    simp only [Memory.writeBlock, ih, List.length_cons, Memory.read_write]
    by_cases h1 : base + 1 ≤ a ∧ a < base + 1 + bs.length
    · rw [if_pos h1, if_pos (by omega), show a - base = (a - (base + 1)) + 1 by omega, List.getD_cons_succ]
    · rw [if_neg h1]
      by_cases h2 : base = a
      · subst h2; simp
      · rw [if_neg h2, if_neg (by omega)]

@[simp] theorem Memory.length_readBlock (m : Memory) (base n : Nat) : (m.readBlock base n).length = n := by
  simp [Memory.readBlock]

theorem Memory.getD_readBlock (m : Memory) (base n k : Nat) (h : k < n) :
    (m.readBlock base n).getD k 0 = m.read (base + k) := by
  simp [Memory.readBlock, List.getD_eq_getElem?_getD, h]

/-! ### The canonical form -/

theorem Memory.wfFrom_mono {lo lo' : Nat} (h : lo' ≤ lo) {m : Memory} (hm : m.wfFrom lo = true) : m.wfFrom lo' = true := by
  cases m with
  | nil => rfl
  | cons c rest =>
    obtain ⟨a, v⟩ := c
    simp only [Memory.wfFrom, Bool.and_eq_true, decide_eq_true_eq, bne_iff_ne] at hm ⊢
    exact ⟨⟨⟨by omega, hm.1.1.2⟩, hm.1.2⟩, hm.2⟩

theorem Memory.wfFrom_erase {lo : Nat} {m : Memory} (a : Nat) (hm : m.wfFrom lo = true) : (m.erase a).wfFrom lo = true := by
  induction m generalizing lo with
  | nil => rfl
  | cons c rest ih =>
    obtain ⟨b, w⟩ := c
    have hm' := hm
    simp only [Memory.wfFrom, Bool.and_eq_true, decide_eq_true_eq, bne_iff_ne] at hm'
    have ht := ih hm'.2
    simp only [Memory.erase] at ht ⊢
    by_cases hb : b = a
    · simp only [List.filter_cons, hb, bne_self_eq_false, Bool.false_eq_true, if_false]
      subst hb
      exact Memory.wfFrom_mono (by omega) ht
    · simp only [List.filter_cons, bne_iff_ne, ne_eq, hb, not_false_eq_true, if_true, Memory.wfFrom, Bool.and_eq_true,
        decide_eq_true_eq]
      exact ⟨⟨⟨hm'.1.1.1, hm'.1.1.2⟩, hm'.1.2⟩, ht⟩

theorem Memory.wfFrom_insert {lo : Nat} {m : Memory} {a : Nat} {v : Byte} (hm : m.wfFrom lo = true) (hlo : lo ≤ a)
    (ha : a < Config.memSize) (hv : v ≠ Memory.initByte a) (hne : ∀ c ∈ m, c.1 ≠ a) : (m.insert a v).wfFrom lo = true := by
  induction m generalizing lo with
  | nil => simp [Memory.insert, Memory.wfFrom, hlo, ha, hv]
  | cons c rest ih =>
    obtain ⟨b, w⟩ := c
    have hba : b ≠ a := hne _ (List.mem_cons_self ..)
    have hm' := hm
    simp only [Memory.wfFrom, Bool.and_eq_true, decide_eq_true_eq, bne_iff_ne] at hm'
    simp only [Memory.insert]
    split
    · simp only [Memory.wfFrom, Bool.and_eq_true, decide_eq_true_eq, bne_iff_ne]
      exact ⟨⟨⟨hlo, ha⟩, hv⟩, ⟨⟨⟨by omega, hm'.1.1.2⟩, hm'.1.2⟩, hm'.2⟩⟩
    · simp only [Memory.wfFrom, Bool.and_eq_true, decide_eq_true_eq, bne_iff_ne]
      exact ⟨hm'.1, ih hm'.2 (by omega) (fun c hc => hne c (List.mem_cons_of_mem _ hc))⟩

/-- A write to an existing address keeps the canonical form. -/
theorem Memory.wf_write {m : Memory} (a : Nat) (v : Byte) (hm : m.wf = true) (ha : a < Config.memSize) :
    (m.write a v).wf = true := by
  unfold Memory.write
  split
  · exact Memory.wfFrom_erase a hm
  · rename_i hv
    exact Memory.wfFrom_insert (Memory.wfFrom_erase a hm) (Nat.zero_le _) ha hv (m.erase_not_mem a)

/-- A block write to existing addresses keeps the canonical form. -/
theorem Memory.wf_writeBlock (bs : List Byte) {m : Memory} (base : Nat) (hm : m.wf = true)
    (ha : base + bs.length ≤ Config.memSize) : (m.writeBlock base bs).wf = true := by
  induction bs generalizing m base with
  | nil => exact hm
  | cons b bs ih =>
    simp only [List.length_cons] at ha
    exact ih (base + 1) (Memory.wf_write base b hm (by omega)) (by omega)

/-! ### The range check (R53, R162) -/

theorem rangeFault_eq_none {base n : Nat} : rangeFault base n = none ↔ n = 0 ∨ base + n ≤ 4096 := by
  unfold rangeFault Config.memSize
  split <;> simp <;> omega

theorem rangeFault_eq_some {base n : Nat} {a : Word} :
    rangeFault base n = some a ↔ (0 < n ∧ 4096 < base + n) ∧ a = BitVec.ofNat 16 (max base 4096) := by
  unfold rangeFault Config.memSize
  split
  · rename_i h
    simp only [Option.some.injEq]
    exact ⟨fun e => ⟨by omega, e.symm⟩, fun e => e.2.symm⟩
  · rename_i h
    simp only [reduceCtorEq, false_iff, not_and]
    intro h'; omega

/-- What the access of an instruction answers: `MemRange` with the lowest address that does not exist and nothing else
written, or the instruction's effect. -/
theorem State.checked_cases (s : State) (j : Instr) (n : Nat) (done : State) :
    ((n = 0 ∨ s.i.toNat + n ≤ 4096) ∧ s.checked j n done = done) ∨
    ((0 < n ∧ 4096 < s.i.toNat + n) ∧
      s.checked j n done = s.raise .memRange (some (encode j)) (some (BitVec.ofNat 16 (max s.i.toNat 4096)))) := by
  unfold State.checked
  cases h : rangeFault s.i.toNat n with
  | none => exact .inl ⟨rangeFault_eq_none.mp h, rfl⟩
  | some a =>
    obtain ⟨h1, rfl⟩ := rangeFault_eq_some.mp h
    exact .inr ⟨h1, rfl⟩

end Sys2Proof.Machine
end

