-- ==== Sys2Proof/Laws/PerInstr.lean ====
section
/-! SUPPORT. Per instruction: the decoder gives back what the encoder wrote (30_encoding.md R75, R76). -/

namespace Sys2Proof.Laws.RoundTrip

/-- Decoding the word of a well-formed instruction gives the instruction. -/
def Statement (i : Instr) : Prop := i.wellFormed = true → decodeWord (encode i) = i

theorem cls : Statement .cls := fun _ => by decide
theorem ret : Statement .ret := fun _ => by decide
theorem jp (nnn : Addr12) : Statement (.jp nnn) := fun _ => by
  simp [encode, decodeWord_eq]
theorem call (nnn : Addr12) : Statement (.call nnn) := fun _ => by
  simp [encode, decodeWord_eq]
theorem seImm (x : RegIx) (nn : Byte) : Statement (.seImm x nn) := fun _ => by
  simp [encode, decodeWord_eq]
theorem sneImm (x : RegIx) (nn : Byte) : Statement (.sneImm x nn) := fun _ => by
  simp [encode, decodeWord_eq]
theorem seReg (x y : RegIx) : Statement (.seReg x y) := fun _ => by
  simp [encode, decodeWord_eq]
theorem ldImm (x : RegIx) (nn : Byte) : Statement (.ldImm x nn) := fun _ => by
  simp [encode, decodeWord_eq]
theorem addImm (x : RegIx) (nn : Byte) : Statement (.addImm x nn) := fun _ => by
  simp [encode, decodeWord_eq]
theorem ldReg (x y : RegIx) : Statement (.ldReg x y) := fun _ => by
  simp [encode, decodeWord_eq]
theorem or (x y : RegIx) : Statement (.or x y) := fun _ => by
  simp [encode, decodeWord_eq]
theorem and (x y : RegIx) : Statement (.and x y) := fun _ => by
  simp [encode, decodeWord_eq]
theorem xor (x y : RegIx) : Statement (.xor x y) := fun _ => by
  simp [encode, decodeWord_eq]
theorem addReg (x y : RegIx) : Statement (.addReg x y) := fun _ => by
  simp [encode, decodeWord_eq]
theorem sub (x y : RegIx) : Statement (.sub x y) := fun _ => by
  simp [encode, decodeWord_eq]
theorem shr (x y : RegIx) : Statement (.shr x y) := fun _ => by
  simp [encode, decodeWord_eq]
theorem subn (x y : RegIx) : Statement (.subn x y) := fun _ => by
  simp [encode, decodeWord_eq]
theorem shl (x y : RegIx) : Statement (.shl x y) := fun _ => by
  simp [encode, decodeWord_eq]
theorem sneReg (x y : RegIx) : Statement (.sneReg x y) := fun _ => by
  simp [encode, decodeWord_eq]
theorem ldI (nnn : Addr12) : Statement (.ldI nnn) := fun _ => by
  simp [encode, decodeWord_eq]
theorem jpV0 (nnn : Addr12) : Statement (.jpV0 nnn) := fun _ => by
  simp [encode, decodeWord_eq]
theorem rnd (x : RegIx) (nn : Byte) : Statement (.rnd x nn) := fun _ => by
  simp [encode, decodeWord_eq]
theorem drw (x y : RegIx) (n : Nibble) : Statement (.drw x y n) := fun _ => by
  simp [encode, decodeWord_eq]
theorem skp (x : RegIx) : Statement (.skp x) := fun _ => by
  simp [encode, decodeWord_eq]
theorem sknp (x : RegIx) : Statement (.sknp x) := fun _ => by
  simp [encode, decodeWord_eq]
theorem ldVxDt (x : RegIx) : Statement (.ldVxDt x) := fun _ => by
  simp [encode, decodeWord_eq]
theorem ldVxK (x : RegIx) : Statement (.ldVxK x) := fun _ => by
  simp [encode, decodeWord_eq]
theorem ldDtVx (x : RegIx) : Statement (.ldDtVx x) := fun _ => by
  simp [encode, decodeWord_eq]
theorem ldStVx (x : RegIx) : Statement (.ldStVx x) := fun _ => by
  simp [encode, decodeWord_eq]
theorem addI (x : RegIx) : Statement (.addI x) := fun _ => by
  simp [encode, decodeWord_eq]
theorem ldF (x : RegIx) : Statement (.ldF x) := fun _ => by
  simp [encode, decodeWord_eq]
theorem ldB (x : RegIx) : Statement (.ldB x) := fun _ => by
  simp [encode, decodeWord_eq]
theorem stBlock (x : RegIx) : Statement (.stBlock x) := fun _ => by
  simp [encode, decodeWord_eq]
theorem ldBlock (x : RegIx) : Statement (.ldBlock x) := fun _ => by
  simp [encode, decodeWord_eq]

/-- A word that is not assigned (R77) is in no row. -/
theorem nop (w : Word) : Statement (.nop w) := fun h => by
  have ha : assigned w = false := by simpa [Instr.wellFormed, nopWordOk] using h
  rw [encode, decodeWord_eq]
  iterate 2 (refine (if_neg fun hc => ?_).trans ?_; · rw [hc.2] at ha; exact absurd ha (by decide))
  iterate 32 (refine (if_neg fun hc => ?_).trans ?_; · simp [assigned_eq, hc] at ha)
  rfl

end Sys2Proof.Laws.RoundTrip
end

