-- ==== Sys2Proof/Laws/Step.lean ====
section
/-! SUPPORT. What the fetch, an instruction, each event and a step can do, said once. -/

namespace Sys2Proof.Machine

/-! ### The fetch (R51) -/

theorem fetch_eq_ok {s : State} {w : Word} :
    fetch s = .ok w ↔ s.pc.toNat ≤ 0x0FFE ∧ w = wordOfBytes (s.mem.read s.pc.toNat) (s.mem.read (s.pc.toNat + 1)) := by
  unfold fetch Config.memSize
  split
  · simp; omega
  · split
    · simp; omega
    · simp only [Except.ok.injEq]
      exact ⟨fun h => ⟨by omega, h.symm⟩, fun h => h.2.symm⟩

theorem fetch_eq_error {s : State} {a : Word} :
    fetch s = .error a ↔ 0x0FFF ≤ s.pc.toNat ∧ a = BitVec.ofNat 16 (max s.pc.toNat 4096) := by
  unfold fetch Config.memSize
  split
  · rename_i h
    rw [Nat.max_eq_left (by omega), BitVec.ofNat_toNat, BitVec.setWidth_eq]
    simp only [Except.error.injEq]
    exact ⟨fun h => ⟨by omega, h.symm⟩, fun h => h.2.symm⟩
  · split
    · rename_i h
      rw [Nat.max_eq_right (by omega)]
      simp only [Except.error.injEq]
      exact ⟨fun h => ⟨by omega, h.symm⟩, fun h => h.2.symm⟩
    · simp; omega

/-- The fetch reads `PC` and memory only. -/
theorem fetch_congr {s t : State} (hpc : t.pc = s.pc) (hmem : t.mem = s.mem) : fetch t = fetch s := by
  simp only [fetch, hpc, hmem]

/-! ### Instructions -/

/-- Every instruction answers a next state: a fault of the block is one. -/
theorem exec_next (i : Instr) (s : State) : ∃ t, exec i s = .next t := by
  cases i <;> exact ⟨_, rfl⟩

/-- What a checked access answers has every field that the effect and the fault both keep. -/
theorem State.checked_keeps {α : Type} (f : State → α) (s : State) (j : Instr) (n : Nat) (done : State)
    (hdone : f done = f s) (hraise : ∀ k o a, f (s.raise k o a) = f s) : f (s.checked j n done) = f s := by
  obtain ⟨-, h⟩ | ⟨-, h⟩ := s.checked_cases j n done <;> rw [h]
  · exact hdone
  · exact hraise _ _ _

/-- What RET can do. -/
theorem execRet_cases (s : State) :
    (∃ h : 0 < s.sp.val, execRet s =
      .next { s with sp := ⟨s.sp.val - 1, by omega⟩, pc := s.stack[s.sp.val - 1]'(by omega) }) ∨
    (s.sp.val = 0 ∧ execRet s = .next (s.raise .stackUnderflow (some (encode .ret)) none)) := by
  by_cases h : 0 < s.sp.val
  · exact .inl ⟨h, by simp only [execRet, State.pop, dif_pos h]; rfl⟩
  · exact .inr ⟨by omega, by simp only [execRet, State.pop, dif_neg h]⟩

/-- What CALL can do. -/
theorem execCall_cases (nnn : Addr12) (s : State) :
    (∃ h : s.sp.val < 16, execCall nnn s =
      .next { s with stack := s.stack.set s.sp.val (s.pc + 2) h, sp := ⟨s.sp.val + 1, Nat.succ_lt_succ h⟩, pc := zextAddr nnn }) ∨
    (s.sp.val = 16 ∧ execCall nnn s = .next (s.raise .stackOverflow (some (encode (.call nnn))) none)) := by
  have := s.sp_le
  by_cases h : s.sp.val < 16
  · exact .inl ⟨h, by simp only [execCall, State.push, Config.stackDepth, dif_pos h]; rfl⟩
  · exact .inr ⟨by omega, by simp only [execCall, State.push, Config.stackDepth, dif_neg h]⟩

/-- What LD_Vx_K can do. -/
theorem execLdVxK_cases (x : RegIx) (s : State) :
    (∃ k, s.keyEvent = some k ∧
      execLdVxK x s = .next ((State.writeV { s with wait := false } x (k.zeroExtend 8)).advance 2)) ∨
    (s.keyEvent = none ∧ execLdVxK x s = .next { s with wait := true }) := by
  cases h : s.keyEvent with
  | some k => exact .inl ⟨k, rfl, by simp only [execLdVxK, h]⟩
  | none => exact .inr ⟨rfl, by simp only [execLdVxK, h]⟩

/-- No instruction changes the strap or the model's own fields. -/
theorem exec_keeps_environment {i : Instr} {s t : State} (h : exec i s = .next t) :
    t.shiftSrc = s.shiftSrc ∧ t.env = s.env := by
  suffices key : ∀ u, exec i s = .next u → (u.shiftSrc, u.env) = (s.shiftSrc, s.env) from
    Prod.mk.inj (key t h)
  intro u hu
  cases i
  case ret => obtain ⟨h, e⟩ | ⟨h, e⟩ := execRet_cases s <;> cases e.symm.trans hu <;> rfl
  case call nnn => obtain ⟨h, e⟩ | ⟨h, e⟩ := execCall_cases nnn s <;> cases e.symm.trans hu <;> rfl
  case ldVxK x => obtain ⟨k, h, e⟩ | ⟨h, e⟩ := execLdVxK_cases x s <;> cases e.symm.trans hu <;> rfl
  all_goals
    cases hu
    first
      | rfl
      | exact State.checked_keeps (fun s => (s.shiftSrc, s.env)) _ _ _ _ rfl fun _ _ _ => rfl

/-! ### Events -/

/-- The event a step takes, and what taking it changes: the model's own event list, or its count of free answers. -/
theorem nextEvent_cases (s : State) :
    (∃ e rest, s.env.events = e :: rest ∧ nextEvent s = (e, { s with env := { s.env with events := rest } })) ∨
    (s.env.events = [] ∧ nextEvent s =
      (.insn (Config.freePorts s.env.draws), { s with env := { s.env with draws := s.env.draws + 1 } })) := by
  unfold nextEvent
  cases h : s.env.events with
  | nil => exact .inr ⟨rfl, rfl⟩
  | cons e rest => exact .inl ⟨e, rest, rfl, rfl⟩

/-- What an instruction step can do. -/
theorem insnStep_cases (p : Ports) (s : State) :
    (s.halted = true ∧ insnStep p s = .next s) ∨
    (s.halted = false ∧ ∃ w, fetch s = .ok w ∧ insnStep p s = exec (decodeWord w) (s.withPorts p)) ∨
    (s.halted = false ∧ ∃ a, fetch s = .error a ∧
      insnStep p s = .next ((s.withPorts p).raise .memRange none (some a))) := by
  unfold insnStep
  cases hh : s.halted with
  | true => exact .inl ⟨rfl, rfl⟩
  | false =>
    cases hf : fetch s with
    | ok w => exact .inr (.inl ⟨rfl, w, rfl, by simp⟩)
    | error a => exact .inr (.inr ⟨rfl, a, rfl, by simp⟩)

theorem insnStep_next (p : Ports) (s : State) : ∃ t, insnStep p s = .next t := by
  obtain ⟨-, h⟩ | ⟨-, w, -, h⟩ | ⟨-, a, -, h⟩ := insnStep_cases p s
  · exact ⟨_, h⟩
  · exact h ▸ exec_next _ _
  · exact ⟨_, h⟩

theorem halted_eq_false {s : State} : s.halted = false ↔ s.running := by simp [State.halted, State.running]

theorem halted_eq_true {s : State} : s.halted = true ↔ ¬ s.running := by simp [State.halted, State.running]

/-- A countdown stops at 0 (R157). -/
theorem countDown_toNat (b : Byte) : (countDown b).toNat = b.toNat - 1 := by
  unfold countDown
  split
  · rename_i h
    have h0 : b.toNat ≠ 0 := by intro h'; simp [BitVec.toNat_eq] at h; omega
    rw [BitVec.toNat_sub_of_le (by rw [BitVec.le_def]; simpa using Nat.one_le_iff_ne_zero.mpr h0)]
    rfl
  · rename_i h
    have : b = 0 := by simpa using h
    subst this; rfl

/-! ### Steps -/

/-- A step whose event the list gives takes it from the list and does what the event says. -/
theorem step_of_event {s : State} {e : Event} {rest : List Event} (h : s.env.events = e :: rest) :
    step s = match e with
      | .insn p => insnStep p { s with env := { s.env with events := rest } }
      | .tick => .next (timerTick { s with env := { s.env with events := rest } })
      | .reset rom => resetAndLoad rom { s with env := { s.env with events := rest } } := by
  simp only [step, nextEvent, h]
  cases e <;> rfl

/-- A step with no event left is an instruction step with free port answers. -/
theorem step_of_no_event {s : State} (h : s.env.events = []) :
    step s = insnStep (Config.freePorts s.env.draws) { s with env := { s.env with draws := s.env.draws + 1 } } := by
  simp only [step, nextEvent, h]

/-- Everything a step can do, by the event it takes. -/
theorem step_cases (s : State) :
    (∃ p u, nextEvent s = (.insn p, u) ∧ step s = insnStep p u) ∨
    (∃ u, nextEvent s = (.tick, u) ∧ step s = .next (timerTick u)) ∨
    (∃ rom u, nextEvent s = (.reset rom, u) ∧ step s = resetAndLoad rom u) := by
  rcases h : nextEvent s with ⟨e, u⟩
  cases e with
  | insn p => exact .inl ⟨p, u, rfl, by simp only [step, h]⟩
  | tick => exact .inr (.inl ⟨u, rfl, by simp only [step, h]⟩)
  | reset rom => exact .inr (.inr ⟨rom, u, rfl, by simp only [step, h]⟩)

/-- A run goes on from the state after its first step. -/
theorem core_run_succ (n : Nat) {s t : State} (h : step s = .next t) :
    Sys2Proof.core.run (n + 1) s = Sys2Proof.core.run n t := by
  simp only [Host.Core.run, show Sys2Proof.core.step s = .next t from h]

/-- A tick of a block that runs. -/
theorem timerTick_of_running {s : State} (h : s.running) :
    timerTick s = { s with env := { s.env with frames := s.fb :: s.env.frames }, dt := countDown s.dt, st := countDown s.st } := by
  rw [timerTick, halted_eq_false.mpr h]; rfl

/-- A tick of a halted block. -/
theorem timerTick_of_halted {s : State} (h : ¬ s.running) : timerTick s = s := by
  rw [timerTick, halted_eq_true.mpr h]; rfl

end Sys2Proof.Machine
end

