-- ==== Sys2Proof/Tests/Slice0.lean ====
section
/-! SUPPORT. Tests: words written out from spec/30_encoding.md, one-step vectors of spec/95_test_vectors.md (named in each docstring), and a witness for the hypotheses of every obligation that has some. -/

namespace Sys2Proof.Tests

open Sys2Proof Sys2Proof.Machine

/-! ### Helpers -/

/-- No key is pressed, and the random byte is 0. -/
def quiet : Ports := { keyDown := 0, keyEvent := none, randByte := 0 }

/-- The reset state with some registers and some bytes of memory written. -/
def start (regs : List (RegIx × Byte)) (bytes : List (Nat × Byte)) : State :=
  regs.foldl (fun s r => s.writeV r.1 r.2)
    { State.reset with mem := bytes.foldl (fun m c => m.write c.1 c.2) State.reset.mem }

/-- The bytes `hi lo` at `PC`, and one `InsnStep` with the port answers `p` as the only event. -/
def placed (hi lo : Byte) (p : Ports) (s : State) : State :=
  { s with mem := (s.mem.write s.pc.toNat hi).write (s.pc.toNat + 1) lo, env := { s.env with events := [.insn p] } }

/-- The next state, if the outcome is one. -/
def nextOf : Host.Outcome State Fault Refusal → Option State
  | .next t => some t
  | _ => none

/-- One step over the bytes `hi lo` at `PC`. -/
def after (hi lo : Byte) (p : Ports) (s : State) : Option State := nextOf (step (placed hi lo p s))

/-- One tick. -/
def ticked (s : State) : Option State := nextOf (step { s with env := { s.env with events := [.tick] } })

/-- The reset state with the word `hi lo` at 0x200 and nothing else to say. -/
def code (hi lo : Byte) : State := start [] [(0x200, hi), (0x201, lo)]

/-- How many pixels are set. -/
def lit (s : State) : Nat := (s.fb.toList.map fun r => (r.toList.filter id).length).sum

/-- The framebuffer with only the pixel in column 0, row 0 set. -/
def corner : FrameBuffer := FrameBuffer.clear.flip 0 0

/-- A recorded stack overflow. -/
def overflowed : FaultRecord := { kind := .stackOverflow, pc := 0x0200, opcode := some 0x2200, addr := none }

/-! ### Well-formedness -/

/-- R77: an assigned word is no no-op. -/
theorem test_ill_formed_nop_cls : (Instr.nop 0x00E0).wellFormed = false := by decide
theorem test_ill_formed_nop_drw : (Instr.nop 0xD000).wellFormed = false := by decide
theorem test_ill_formed_nop_shl : (Instr.nop 0x8ABE).wellFormed = false := by decide
theorem test_well_formed_nop : (Instr.nop 0x0123).wellFormed = true := by decide

/-! ### Decoding: every constructor, from words written bit by bit (30_encoding.md R71, R72, R76, R77) -/

/-- V-DEC-2, 3, 7, 8, 29, 30: classes 0, 1, 2, A, B. -/
theorem test_decode_addresses :
    decodeWord 0b0000000011100000 = .cls ∧ decodeWord 0b0000000011101110 = .ret ∧
    decodeWord 0b0001000011100000 = .jp 0x0E0 ∧ decodeWord 0b0010111111111111 = .call 0xFFF ∧
    decodeWord 0b1010000100100011 = .ldI 0x123 ∧ decodeWord 0b1011000100100011 = .jpV0 0x123 := by decide

/-- V-DEC-9, 10, 13, 14, 31: classes 3, 4, 6, 7, C. -/
theorem test_decode_immediates :
    decodeWord 0b0011101001111011 = .seImm 0xA 0x7B ∧ decodeWord 0b0100111100000000 = .sneImm 0xF 0x00 ∧
    decodeWord 0b0110110000010010 = .ldImm 0xC 0x12 ∧ decodeWord 0b0111110000010010 = .addImm 0xC 0x12 ∧
    decodeWord 0b1100000111110000 = .rnd 0x1 0xF0 := by decide

/-- V-DEC-11, 15 to 22, 25, 27: classes 5, 8, 9. -/
theorem test_decode_two_registers :
    decodeWord 0b0101101010110000 = .seReg 0xA 0xB ∧ decodeWord 0b1000101010110000 = .ldReg 0xA 0xB ∧
    decodeWord 0b1000101010110001 = .or 0xA 0xB ∧ decodeWord 0b1000101010110010 = .and 0xA 0xB ∧
    decodeWord 0b1000101010110011 = .xor 0xA 0xB ∧ decodeWord 0b1000101010110100 = .addReg 0xA 0xB ∧
    decodeWord 0b1000101010110101 = .sub 0xA 0xB ∧ decodeWord 0b1000101010110110 = .shr 0xA 0xB ∧
    decodeWord 0b1000101010110111 = .subn 0xA 0xB ∧ decodeWord 0b1000101010111110 = .shl 0xA 0xB ∧
    decodeWord 0b1001101010110000 = .sneReg 0xA 0xB := by decide

/-- V-DEC-32 to 35: classes D and E. -/
theorem test_decode_draw_and_keys :
    decodeWord 0b1101000000000000 = .drw 0x0 0x0 0x0 ∧ decodeWord 0b1101000100101111 = .drw 0x1 0x2 0xF ∧
    decodeWord 0b1110000110011110 = .skp 0x1 ∧ decodeWord 0b1110000110100001 = .sknp 0x1 := by decide

/-- V-DEC-38 to 46: class F. -/
theorem test_decode_class_F :
    decodeWord 0b1111000100000111 = .ldVxDt 0x1 ∧ decodeWord 0b1111000100001010 = .ldVxK 0x1 ∧
    decodeWord 0b1111000100010101 = .ldDtVx 0x1 ∧ decodeWord 0b1111000100011000 = .ldStVx 0x1 ∧
    decodeWord 0b1111000100011110 = .addI 0x1 ∧ decodeWord 0b1111000100101001 = .ldF 0x1 ∧
    decodeWord 0b1111000100110011 = .ldB 0x1 ∧ decodeWord 0b1111000101010101 = .stBlock 0x1 ∧
    decodeWord 0b1111111101100101 = .ldBlock 0xF := by decide

/-- V-DEC-1, 4, 5, 6, 12, 23, 24, 26, 28, 36, 37, 47 to 50: unassigned words beside assigned ones. -/
theorem test_decode_nops :
    ([0x0000, 0x00E1, 0x00FF, 0x0123, 0x5AB1, 0x8AB8, 0x8ABD, 0x8ABF, 0x9ABF, 0xE19F, 0xE000, 0xF100, 0xF175, 0xF1FF,
      0xFFFF] : List Word).all (fun w => decodeWord w == .nop w) = true := by decide

/-- R50: the byte at the lower address is the high byte. -/
theorem test_decode_bytes : decode [0x3A, 0x7B, 0x99] = .ok (.seImm 0xA 0x7B, [0x99]) := by decide

/-- R70: one byte is no word. -/
theorem test_decode_truncated : decode [0x3A] = .error .truncated := by decide

theorem test_decode_table_word : decodeTableWord 16 0xD12F = some (.drw 0x1 0x2 0xF) := by decide

/-! ### Reset -/

/-- R190, S8: the first font byte, the last one, and the bytes around the program. -/
theorem test_reset_memory :
    [0x000, 0x04F, 0x050, 0x1FF, 0x200, 0xFFF].map State.reset.mem.read = [0xF0, 0x80, 0x00, 0x00, 0x00, 0x00] := by decide

theorem test_reset_memory_wf : State.reset.mem.wf = true := by decide

/-- R54: writing the reset content back takes the cell away. -/
theorem test_memory_canonical :
    ((State.reset.mem.write 0x300 0x11).write 0x300 0x00 = State.reset.mem) ∧
    ((State.reset.mem.write 0x301 0x22).write 0x300 0x11 = [(0x300, 0x11), (0x301, 0x22)]) := by decide

/-- S8: three bytes loaded. -/
theorem test_load :
    (nextOf (step { code 0x60 0x60 with env := { Env.initial with events := [.reset [0x12, 0x34, 0x56]] } })).map
      (fun t => (t.mem.read 0x200, t.mem.read 0x202, t.mem.read 0x203, t.mem.read 0x000)) = some (0x12, 0x56, 0x00, 0xF0) := by decide

/-! ### Control flow -/

/-- V-FLOW-1. -/
theorem test_nop : (after 0x00 0x00 quiet State.reset).map (·.pc) = some 0x0202 := by decide
/-- V-FLOW-3. -/
theorem test_jp : (after 0x12 0x34 quiet State.reset).map (·.pc) = some 0x0234 := by decide
/-- V-FLOW-7: the pushed address is not reduced. -/
theorem test_call : (after 0x24 0x00 quiet { State.reset with pc := 0x0FFE, sp := 3 }).map
    (fun t => (t.stack[3], t.sp, t.pc)) = some (0x1000, 4, 0x0400) := by decide
/-- V-FLT-7, V-FLT-6: the sixteenth call fits, the seventeenth does not. -/
theorem test_call_limit : ([15, 16] : List (Fin 17)).map (fun n => (after 0x23 0x00 quiet { State.reset with sp := n }).map
    (fun t => (t.stack[15], t.sp, t.pc, t.fault))) =
    [some (0x0202, 16, 0x0300, FaultRecord.clear),
     some (0x0000, 16, 0x0200, { kind := .stackOverflow, pc := 0x0200, opcode := some 0x2300, addr := none })] := by decide
/-- V-FLOW-9. -/
theorem test_ret : (after 0x00 0xEE quiet { State.reset with pc := 0x0300, sp := 16, stack := State.reset.stack.set 15 0x0ABC }).map
    (fun t => (t.pc, t.sp, t.stack[15])) = some (0x0ABC, 15, 0x0ABC) := by decide
/-- V-FLT-5. -/
theorem test_ret_underflow : (after 0x00 0xEE quiet State.reset).map (fun t => (t.fault, t.sp, t.pc)) =
    some ({ kind := .stackUnderflow, pc := 0x0200, opcode := some 0x00EE, addr := none }, 0, 0x0200) := by decide
/-- V-FLOW-10, 11. -/
theorem test_se_imm : [0x2A, 0x2B].map (fun b => (after 0x33 0x2A quiet (start [(3, b)] [])).map (·.pc)) =
    [some 0x0204, some 0x0202] := by decide
/-- V-FLOW-12, 13. -/
theorem test_sne_imm : [0x2A, 0x2B].map (fun b => (after 0x43 0x2A quiet (start [(3, b)] [])).map (·.pc)) =
    [some 0x0202, some 0x0204] := by decide
/-- V-FLOW-14, 15. -/
theorem test_se_reg : [7, 8].map (fun b => (after 0x51 0x20 quiet (start [(1, 7), (2, b)] [])).map (·.pc)) =
    [some 0x0204, some 0x0202] := by decide
/-- V-FLOW-17, 18. -/
theorem test_sne_reg : [8, 7].map (fun b => (after 0x91 0x20 quiet (start [(1, 7), (2, b)] [])).map (·.pc)) =
    [some 0x0204, some 0x0202] := by decide
/-- V-FLOW-22: V[0], not V[3]. -/
theorem test_jp_v0 : (after 0xB3 0x00 quiet (start [(0, 0x01), (3, 0x50)] [])).map (·.pc) = some 0x0301 := by decide
/-- V-FLOW-21: the sum is not reduced. -/
theorem test_jp_v0_high : (after 0xBF 0xFF quiet (start [(0, 0xFF)] [])).map (fun t => (t.pc, t.fault.kind)) =
    some (0x10FE, .none) := by decide
/-- V-FLOW-25: an odd PC. -/
theorem test_odd_pc : (after 0x6B 0x2C quiet { State.reset with pc := 0x0203 }).map (fun t => (t.readV 11, t.pc)) =
    some (0x2C, 0x0205) := by decide

/-! ### Registers and arithmetic -/

/-- V-ALU-1. -/
theorem test_ld_imm : (after 0x6A 0x2F quiet State.reset).map (fun t => (t.readV 10, t.pc)) = some (0x2F, 0x0202) := by decide
/-- V-ALU-3. -/
theorem test_add_imm : (after 0x71 0x02 quiet (start [(1, 0xFF)] [])).map (fun t => (t.readV 1, t.readV VF)) =
    some (0x01, 0) := by decide
/-- V-ALU-5. -/
theorem test_add_imm_vf : (after 0x7F 0x01 quiet (start [(VF, 0xFF)] [])).map (·.readV VF) = some 0 := by decide
/-- V-ALU-6. -/
theorem test_ld_reg : (after 0x81 0x20 quiet (start [(2, 0x55)] [])).map (·.readV 1) = some 0x55 := by decide
/-- V-ALU-7. -/
theorem test_or : (after 0x81 0x21 quiet (start [(1, 0xF0), (2, 0x0F), (VF, 1)] [])).map (fun t => (t.readV 1, t.readV VF)) =
    some (0xFF, 1) := by decide
/-- V-ALU-8. -/
theorem test_and : (after 0x81 0x22 quiet (start [(1, 0xF0), (2, 0x3C), (VF, 1)] [])).map (fun t => (t.readV 1, t.readV VF)) =
    some (0x30, 1) := by decide
/-- V-ALU-9. -/
theorem test_xor : (after 0x81 0x23 quiet (start [(1, 0xF0), (2, 0x3C), (VF, 1)] [])).map (fun t => (t.readV 1, t.readV VF)) =
    some (0xCC, 1) := by decide
/-- V-ALU-12. -/
theorem test_add_reg : (after 0x81 0x24 quiet (start [(1, 0xFF), (2, 0xFF)] [])).map (fun t => (t.readV 1, t.readV VF)) =
    some (0xFE, 1) := by decide
/-- V-VF-1: the flag wins. -/
theorem test_add_reg_vf : (after 0x8F 0x24 quiet (start [(VF, 0xFF), (2, 0x01)] [])).map (·.readV VF) = some 1 := by decide
/-- V-ALU-18. -/
theorem test_sub : (after 0x81 0x25 quiet (start [(1, 0x00), (2, 0x01)] [])).map (fun t => (t.readV 1, t.readV VF)) =
    some (0xFF, 0) := by decide
/-- V-ALU-19: equal operands need no borrow. -/
theorem test_sub_equal : (after 0x81 0x25 quiet (start [(1, 0x05), (2, 0x05)] [])).map (fun t => (t.readV 1, t.readV VF)) =
    some (0x00, 1) := by decide
/-- V-ALU-22. -/
theorem test_subn : (after 0x81 0x27 quiet (start [(1, 0x20), (2, 0x10)] [])).map (fun t => (t.readV 1, t.readV VF)) =
    some (0xF0, 0) := by decide
/-- V-VF-5: VF as source. -/
theorem test_subn_vf : (after 0x81 0xF7 quiet (start [(1, 0x20), (VF, 0x01)] [])).map (fun t => (t.readV 1, t.readV VF)) =
    some (0xE1, 0) := by decide
/-- V-ALU-27: both values of the strap. -/
theorem test_shr : [ShiftSrc.vx, ShiftSrc.vy].map (fun c =>
    (after 0x81 0x26 quiet { start [(1, 0x00), (2, 0x55)] [] with shiftSrc := c }).map (fun t => (t.readV 1, t.readV VF))) =
    [some (0x00, 0), some (0x2A, 1)] := by decide
/-- V-VF-12. -/
theorem test_shr_vf : (after 0x8F 0x26 quiet (start [(VF, 0x03)] [])).map (·.readV VF) = some 1 := by decide
/-- V-ALU-31: both values of the strap. -/
theorem test_shl : [ShiftSrc.vx, ShiftSrc.vy].map (fun c =>
    (after 0x81 0x2E quiet { start [(1, 0x40), (2, 0xAA)] [] with shiftSrc := c }).map (fun t => (t.readV 1, t.readV VF))) =
    [some (0x80, 0), some (0x54, 1)] := by decide
/-- V-VF-13. -/
theorem test_shl_vf : (after 0x8F 0x2E quiet (start [(VF, 0x40)] [])).map (·.readV VF) = some 0 := by decide
/-- V-ALU-34. -/
theorem test_rnd : (after 0xC3 0x0F { quiet with randByte := 0xA7 } State.reset).map (·.readV 3) = some 0x07 := by decide

/-! ### Address register and memory -/

/-- V-MEM-1. -/
theorem test_ld_i : (after 0xA2 0xF0 quiet State.reset).map (·.i) = some 0x02F0 := by decide
/-- V-MEM-4: past the end of memory, no flag, no fault. -/
theorem test_add_i : (after 0xF2 0x1E quiet { start [(2, 0x01)] [] with i := 0x0FFF }).map
    (fun t => (t.i, t.readV VF, t.fault.kind)) = some (0x1000, 0, .none) := by decide
/-- V-MEM-6: modulo 65536. -/
theorem test_add_i_wraps : (after 0xF2 0x1E quiet { start [(2, 0xFF)] [] with i := 0xFFFF }).map (·.i) = some 0x00FE := by decide
/-- V-MEM-8, 10: the low digit. -/
theorem test_ld_f : [0x0A, 0x1A].map (fun b => (after 0xF4 0x29 quiet (start [(4, b)] [])).map (·.i)) =
    [some 0x0032, some 0x0032] := by decide
/-- V-MEM-19: the last placement that fits. -/
theorem test_ld_b : (after 0xF5 0x33 quiet { start [(5, 0x7B)] [] with i := 0x0FFD }).map
    (fun t => (t.mem.readBlock 0xFFD 3, t.fault.kind, t.i)) = some ([1, 2, 3], .none, 0x0FFD) := by decide
/-- V-FLT-8: nothing is written. -/
theorem test_ld_b_fault : (after 0xF5 0x33 quiet { start [(5, 0x7B)] [(0xFFE, 0xAA), (0xFFF, 0xBB)] with i := 0x0FFE }).map
    (fun t => (t.mem.readBlock 0xFFE 2, t.fault)) =
    some ([0xAA, 0xBB], { kind := .memRange, pc := 0x0200, opcode := some 0xF533, addr := some 0x1000 }) := by decide
/-- V-MEM-20. -/
theorem test_st_block : (after 0xF2 0x55 quiet { start [(0, 0x11), (1, 0x22), (2, 0x33), (3, 0x44)] [(0x403, 0xEE)] with i := 0x0400 }).map
    (fun t => (t.mem.readBlock 0x400 4, t.i)) = some ([0x11, 0x22, 0x33, 0xEE], 0x0400) := by decide
/-- V-FLT-9: not one byte is written. -/
theorem test_st_block_fault : (after 0xFF 0x55 quiet { start [(0, 0x11)] [] with i := 0x0FF1 }).map
    (fun t => (t.mem.read 0xFF1, t.fault)) =
    some (0, { kind := .memRange, pc := 0x0200, opcode := some 0xFF55, addr := some 0x1000 }) := by decide
/-- V-MEM-23. -/
theorem test_ld_block : (after 0xF2 0x65 quiet { start [(3, 0x77)] [(0x400, 0x11), (0x401, 0x22), (0x402, 0x33), (0x403, 0x44)] with i := 0x0400 }).map
    (fun t => ([0, 1, 2, 3].map t.readV, t.i)) = some ([0x11, 0x22, 0x33, 0x77], 0x0400) := by decide
/-- V-FLT-10: the address above 4095 is the one reported. -/
theorem test_ld_block_fault : (after 0xF0 0x65 quiet { start [(0, 0x12)] [] with i := 0xFFFF }).map
    (fun t => (t.readV 0, t.fault)) =
    some (0x12, { kind := .memRange, pc := 0x0200, opcode := some 0xF065, addr := some 0xFFFF }) := by decide

/-! ### Framebuffer -/

/-- V-DRW-1. -/
theorem test_cls : (after 0x00 0xE0 quiet { start [(VF, 1)] [] with fb := corner }).map (fun t => (lit t, t.readV VF)) =
    some (0, 1) := by decide
/-- V-DRW-11: glyph 1 at column 2, row 3. -/
theorem test_drw : (after 0xD0 0x15 quiet { start [(0, 2), (1, 3)] [] with i := 0x0005 }).map
    (fun t => ([(3, 4), (4, 3), (4, 4), (5, 4), (6, 4), (7, 3), (7, 4), (7, 5)].all (fun q => t.fb.pixel q.1 q.2), lit t, t.readV VF)) =
    some (true, 8, 0) := by decide
/-- V-DRW-3 and V-DRW-5: wrap-around to row 0, and a collision there. -/
theorem test_drw_collision : (after 0xD0 0x12 quiet { start [(1, 31)] [(0x300, 0x80), (0x301, 0xC0)] with i := 0x0300, fb := corner }).map
    (fun t => (t.fb.pixel 0 0, t.fb.pixel 0 1, t.fb.pixel 31 0, lit t, t.readV VF)) = some (false, true, true, 2, 1) := by decide

/-! ### Keys and timers -/

/-- V-KEY-1, 7. -/
theorem test_skp : [0x0020, 0xFFDF].map (fun d => (after 0xE2 0x9E { quiet with keyDown := d } (start [(2, 0x05)] [])).map (·.pc)) =
    [some 0x0204, some 0x0202] := by decide
/-- V-KEY-5: the low digit names the key. -/
theorem test_skp_low_digit : (after 0xE2 0x9E { quiet with keyDown := 0x0020 } (start [(2, 0x15)] [])).map (·.pc) = some 0x0204 := by
  decide
/-- V-KEY-3, 4. -/
theorem test_sknp : [0x0020, 0x0000].map (fun d => (after 0xE2 0xA1 { quiet with keyDown := d } (start [(2, 0x05)] [])).map (·.pc)) =
    [some 0x0202, some 0x0204] := by decide
/-- V-KEY-8. -/
theorem test_key_wait_polls : (after 0xF3 0x0A quiet (start [(3, 0x77)] [])).map (fun t => (t.wait, t.pc, t.readV 3)) =
    some (true, 0x0200, 0x77) := by decide
/-- V-KEY-9. -/
theorem test_key_wait_ends : (after 0xF3 0x0A { quiet with keyEvent := some 0xB } { State.reset with wait := true }).map
    (fun t => (t.wait, t.pc, t.readV 3)) = some (false, 0x0202, 0x0B) := by decide
/-- V-TMR-1. -/
theorem test_ld_vx_dt : (after 0xF4 0x07 quiet { State.reset with dt := 0x3C }).map (fun t => (t.readV 4, t.dt)) =
    some (0x3C, 0x3C) := by decide
/-- V-TMR-2. -/
theorem test_ld_dt_vx : (after 0xF4 0x15 quiet (start [(4, 0x05)] [])).map (fun t => (t.dt, t.st)) = some (0x05, 0) := by decide
/-- V-TMR-3. -/
theorem test_ld_st_vx : (after 0xF4 0x18 quiet (start [(4, 0x1E)] [])).map (fun t => (t.st, t.dt, t.soundOn)) =
    some (0x1E, 0, true) := by decide
/-- V-TMR-4, 6: the timers are apart, and 0 stays 0. -/
theorem test_tick : (ticked { State.reset with dt := 0xFF, st := 0x00 }).map (fun t => (t.dt, t.st, t.env.frames.length)) =
    some (0xFE, 0x00, 1) := by decide
/-- V-TMR-9: a halted block ignores a tick. -/
theorem test_tick_halted : (ticked { State.reset with dt := 7, fault := overflowed }).map (fun t => (t.dt, t.env.frames.length)) =
    some (7, 0) := by decide

/-! ### Faults at the fetch -/

/-- V-FLT-1, 2, 4. -/
theorem test_fetch_range : [0x0FFE, 0x0FFF, 0x10FE].map (fun pc =>
    (nextOf (step { State.reset with pc := pc, env := { Env.initial with events := [.insn quiet] } })).map (fun t => (t.fault, t.pc))) =
    [some (FaultRecord.clear, 0x1000),
     some ({ kind := .memRange, pc := 0x0FFF, opcode := none, addr := some 0x1000 }, 0x0FFF),
     some ({ kind := .memRange, pc := 0x10FE, opcode := none, addr := some 0x10FE }, 0x10FE)] := by decide

/-- V-FLT-14: a halted block ignores an instruction step. -/
theorem test_halted : (after 0x60 0x01 quiet { State.reset with fault := overflowed }).map (fun t => (t.readV 0, t.pc, t.fault)) =
    some (0, 0x0200, overflowed) := by decide

/-- A step with no event given runs the word at PC too. -/
theorem test_no_event : (nextOf (step (State.reset.withFetchWord 16 0x6A2F))).map (fun t => (t.readV 10, t.pc)) =
    some (0x2F, 0x0202) := by decide

/-! ### Witnesses: the hypotheses of the obligations are met, clause by clause -/

/-- A block that waits for a key at 0x200, with one return address. -/
def waiting : State :=
  { code 0xF3 0x0A with wait := true, sp := 1, stack := State.reset.stack.set 0 0x1000, env := { Env.initial with events := [.tick] } }

theorem witness_StepKeepsTheInvariant : ∃ t, Inv waiting ∧ step waiting = .next t :=
  ⟨_, ⟨by decide, by decide, by decide, fun _ => ⟨rfl, 3, rfl⟩, ⟨rfl, rfl⟩⟩, rfl⟩

/-- A block halted by a call too many. -/
def full : State :=
  { code 0x22 0x00 with sp := 16, stack := Vector.replicate 16 0x0202, fault := overflowed, env := { Env.initial with events := [.insn quiet, .tick] } }

theorem witness_StepKeepsTheInvariant_halted : ∃ t, Inv full ∧ step full = .next t :=
  ⟨_, ⟨by decide, by decide, by decide, fun h => Bool.noConfusion h, ⟨rfl, rfl, rfl⟩⟩, rfl⟩

theorem witness_DecodingAnEncodedInstructionGivesItBack :
    (Instr.drw 0xF 0xF 0xF).wellFormed = true ∧ (Instr.nop 0xFFFF).wellFormed = true ∧ (Instr.nop 0x0000).wellFormed = true := by
  decide

theorem witness_DecodingFollowsTheMatchingRow :
    (∃ r ∈ opRows, (0x8ABE : Word) &&& r.mask = r.bits) ∧ ∀ r ∈ opRows, (0x8ABF : Word) &&& r.mask ≠ r.bits := by decide

/-- The last word that can be fetched, with the event given and with none. -/
theorem witness_StepRunsTheDecodedInstruction :
    let s := { start [] [(0xFFE, 0xD0), (0xFFF, 0x1F)] with pc := 0x0FFE }
    s.running ∧ s.pc.toNat ≤ 0x0FFE ∧ decode [s.mem.read s.pc.toNat, s.mem.read (s.pc.toNat + 1)] = .ok (.drw 0 1 0xF, []) ∧
      s.env.events = [] ∧ (placed 0xD0 0x1F quiet s).env.events = [.insn quiet] := by
  exact ⟨rfl, by decide, by decide, rfl, rfl⟩

theorem witness_FetchOutsideMemoryFaults :
    (∃ t, nextEvent { State.reset with pc := 0x0FFF } = (.insn (Config.freePorts 0), t)) ∧ State.reset.running ∧
    (0x1000 : Word).toNat > 0x0FFF ∧ (0xFFFF : Word).toNat > 0x0FFF ∧ ¬ (0x0FFF : Word).toNat > 0x0FFF :=
  ⟨⟨_, rfl⟩, rfl, by decide, by decide, by decide⟩

theorem witness_HaltedBlockChangesNothingUntilReset :
    ¬ full.running ∧ full.env.events = [.insn quiet, .tick] ∧ ∀ rom, Event.reset rom ∉ full.env.events :=
  ⟨fun h => FaultKind.noConfusion h, rfl, fun rom h => by simp [full] at h⟩

/-- The longest image that fits and the shortest that does not. -/
theorem witness_ResetEventLoadsTheImage :
    (List.replicate 3584 (0xFF : Byte)).length ≤ 3584 ∧ 3584 < (List.replicate 3585 (0xFF : Byte)).length ∧
    { full with env := { Env.initial with events := [.reset [0x12]] } }.env.events = [.reset [0x12]] :=
  ⟨List.length_replicate.le, List.length_replicate.symm ▸ Nat.lt_succ_self 3584, rfl⟩

theorem witness_NoStepChangesTheShiftSource : ∃ t, step { waiting with shiftSrc := .vy } = .next t := ⟨_, rfl⟩

theorem witness_NoStepRecordsAFramebufferFault :
    ∃ t, step { full with fault := { overflowed with kind := .fbRange } } = .next t ∧ t.fault.kind = .fbRange := ⟨_, rfl, rfl⟩

theorem witness_TimerTickFlushesThenCountsDown :
    waiting.env.events = [.tick] ∧ waiting.running ∧ ¬ full.running := ⟨rfl, rfl, fun h => FaultKind.noConfusion h⟩

theorem witness_TimersReachZeroAndStayThere :
    let s := { waiting with dt := 2, st := 0xFF, env := { Env.initial with events := [.tick, .tick, .tick, .insn quiet] } }
    s.running ∧ s.env.events = List.replicate 3 .tick ++ [.insn quiet] := ⟨rfl, rfl⟩

theorem witness_BothTicksRunTheInstructionFirst :
    { waiting with env := { Env.initial with events := [.insn quiet, .tick] } }.env.events = bothTicks quiet ++ [] := rfl

theorem witness_NopOnlyAdvances : assigned 0x0000 = false ∧ assigned 0xFFFF = false ∧ assigned 0x00E0 = true := by decide

theorem witness_CallPushesOrOverflows :
    { State.reset with sp := 15 }.sp.val < 16 ∧ State.reset.sp.val < 16 ∧ { State.reset with sp := 16 }.sp.val = 16 := by decide

theorem witness_RetPopsOrUnderflows :
    0 < { State.reset with sp := 1 }.sp.val ∧ 0 < { State.reset with sp := 16 }.sp.val ∧ State.reset.sp.val = 0 := by decide

theorem witness_CallThenRetReturns : { State.reset with sp := 15 }.sp.val < 16 := by decide

/-- Equal and unequal operands, and one register as both. -/
theorem witness_SkipsOnEqual :
    (start [(3, 0x2A)] []).readV 3 = 0x2A ∧ (start [(3, 0x2B)] []).readV 3 ≠ 0x2A ∧
    (start [(1, 7), (2, 7)] []).readV 1 = (start [(1, 7), (2, 7)] []).readV 2 ∧
    (start [(1, 7), (2, 8)] []).readV 1 ≠ (start [(1, 7), (2, 8)] []).readV 2 := by decide

theorem witness_SkipsOnNotEqual :
    (start [(VF, 1)] []).readV VF = 1 ∧ (start [(VF, 1)] []).readV VF ≠ 0 ∧
    (start [(1, 7)] []).readV 1 ≠ (start [(1, 7)] []).readV 0xE ∧ (start [] []).readV 1 = (start [] []).readV 0xE := by decide

/-- For AddRegisterSumAndCarry, SubDifferenceAndNoBorrow and SubnIsSubWithOperandsExchanged: a destination that is not VF, and VF. -/
theorem witness_flag_writers : (0x0 : RegIx) ≠ VF ∧ (0xE : RegIx) ≠ VF ∧ ¬ (0xF : RegIx) ≠ VF := by decide

/-- For the DRW form of FlagWinsWhenBothOperandsAreVF: no row, the last sprite that fits, a pixel hit and none. -/
theorem witness_FlagWinsWhenBothOperandsAreVF :
    (0 : Nibble) = 0 ∧ (0x0FF1 : Word).toNat + (0xF : Nibble).toNat - 1 ≤ 4095 ∧
    (let s := { start [] [(0x300, 0x80)] with i := 0x0300, fb := corner }
     s.fb.pixel 0 0 = true ∧ (s.mem.read (s.i.toNat + 0)).getLsbD (7 - 0) = true ∧
       ((s.readV VF).toNat + 0) % 64 = 0 ∧ ((s.readV VF).toNat + 0) % 32 = 0) ∧
    FrameBuffer.clear.pixel 0 0 = false := by decide

theorem witness_ShiftsOfTheConfiguredSource :
    let s := start [(1, 0x80), (2, 0xAA)] []
    let t := { s with shiftSrc := .vy }
    (s.shiftSrc = .vx → 0x80 = s.readV 1) ∧ (s.shiftSrc = .vy → 0x80 = s.readV 2) ∧
    (t.shiftSrc = .vx → 0xAA = t.readV 1) ∧ (t.shiftSrc = .vy → 0xAA = t.readV 2) := by decide

theorem witness_RandomByteIsMasked : (0xF0 : Byte).getLsbD 0 = false ∧ (0xF0 : Byte).getLsbD 7 = true := by decide

/-- The last address that fits and the first that does not, and the highest. -/
theorem witness_DecimalDigitsAreStored :
    (0x0FFD : Word).toNat + 2 ≤ 4095 ∧ 4095 < (0x0FFE : Word).toNat + 2 ∧ 4095 < (0xFFFF : Word).toNat + 2 := by decide

/-- For RegisterBlockIsStored, RegisterBlockIsLoaded and StoredBlockLoadsBack. -/
theorem witness_register_blocks :
    (0x0FF0 : Word).toNat + (0xF : RegIx).toNat ≤ 4095 ∧ 4095 < (0x0FF1 : Word).toNat + (0xF : RegIx).toNat ∧
    (0x0FFF : Word).toNat + (0x0 : RegIx).toNat ≤ 4095 ∧ 4095 < (0x1000 : Word).toNat + (0x0 : RegIx).toNat ∧
    (0x0 : RegIx).toNat ≤ (0x0 : RegIx).toNat ∧ (0xE : RegIx).toNat < (0xF : RegIx).toNat := by decide

theorem witness_StoredBlockLoadsBack :
    let s := { start [(0, 1), (1, 2)] [] with i := 0x0FFE }
    ∃ t, s.i.toNat + (1 : RegIx).toNat ≤ 4095 ∧ exec (.stBlock 1) s = .next t ∧ (t.writeV 0 9).i = t.i ∧ (t.writeV 0 9).mem = t.mem :=
  ⟨_, by decide, rfl, rfl, rfl⟩

theorem witness_StoredCodeIsFetchedNext :
    let s := { start [(0, 0x60), (1, 0x2A)] [] with i := 0x0FFE, pc := 0x0FFC }
    1 ≤ (1 : RegIx).toNat ∧ s.i = s.pc + 2 ∧ s.i.toNat + (1 : RegIx).toNat ≤ 4095 := by decide

/-- No row at all; the last byte that fits; a pixel covered and one that is not. -/
theorem witness_SpriteTurnsOverExactlyItsPixels :
    (0 : Nibble) = 0 ∧ (0x0FFE : Word).toNat + (2 : Nibble).toNat - 1 ≤ 4095 ∧
    (start [] [(0x300, 0x40)]).mem.read 0x300 = 0x40 ∧ (0x40 : Byte).getLsbD (7 - 1) = true ∧ (0x40 : Byte).getLsbD (7 - 0) = false := by
  decide

theorem witness_SpriteOutsideMemoryFaults :
    0 < (2 : Nibble).toNat ∧ 4095 < (0x0FFF : Word).toNat + (2 : Nibble).toNat - 1 ∧
    0 < (1 : Nibble).toNat ∧ 4095 < (0xFFFF : Word).toNat + (1 : Nibble).toNat - 1 := by decide

/-- A block with a sprite at 0x300. -/
def drawing : State := { start [(0, 60), (1, 31)] [(0x300, 0xFF)] with i := 0x0300 }

theorem witness_DrawingTwiceRestoresTheScreen :
    ∃ t, (drawing.i.toNat + (1 : Nibble).toNat - 1 ≤ 4095) ∧ exec (.drw 0 1 1) drawing = .next t ∧
      t.readV 0 = drawing.readV 0 ∧ t.readV 1 = drawing.readV 1 := ⟨_, by decide, rfl, rfl, rfl⟩

theorem witness_KeySkipsFollowTheKey :
    (0x8000 : BitVec 16).getLsbD ((0xFF : Byte).toNat % 16) = true ∧ (0x7FFF : BitVec 16).getLsbD ((0x0F : Byte).toNat % 16) = false ∧
    (0x0001 : BitVec 16).getLsbD ((0x10 : Byte).toNat % 16) = true := by decide

theorem witness_KeyWaitPollsOnce :
    (State.reset.withPorts { quiet with keyEvent := some 0xF }).env.ports.keyEvent = some 0xF ∧
    (State.reset.withPorts { quiet with keyEvent := some 0x0 }).env.ports.keyEvent = some 0x0 ∧
    (State.reset.withPorts quiet).env.ports.keyEvent = none := by decide

theorem witness_KeyWaitEndsWithTheFirstKey :
    let q : Ports := { quiet with keyEvent := some 0x0 }
    let s := { waiting with dt := 1, env := { Env.initial with events := [.insn quiet, .tick, .insn quiet, .tick, .insn q] } }
    s.running ∧ fetch s = .ok (0xF#4 ++ (3 : RegIx) ++ 0x0A#8) ∧ quiet.keyEvent = none ∧ q.keyEvent = some 0x0 ∧
      s.env.events = (List.replicate 2 [Event.insn quiet, Event.tick]).flatten ++ Event.insn q :: [] :=
  ⟨rfl, rfl, rfl, rfl, rfl⟩

theorem witness_FaultsArePrecise :
    ∃ t, State.reset.running ∧ exec (.ldB 0) { State.reset with i := 0x0FFE } = .next t ∧ ¬ t.running :=
  ⟨_, rfl, rfl, fun h => FaultKind.noConfusion h⟩

theorem witness_OnlyTheNamedInstructionsWriteEachPart :
    ∃ t, drawing.running ∧ exec (.drw 0 1 1) drawing = .next t ∧ t.running := ⟨_, rfl, rfl, rfl⟩

theorem witness_OnlyDestinationRegistersChange :
    ∃ t, exec (.ldBlock 0xE) State.reset = .next t ∧ writesReg (.ldBlock 0xE) VF = false := ⟨_, rfl, rfl⟩

theorem witness_PortsReachOnlyTheInputInstructions :
    ∃ t, samplesPorts (.drw 0 1 1) = false ∧ exec (.drw 0 1 1) drawing = .next t := ⟨_, rfl, rfl⟩

/-- A jump to self at 0x200, with a tick and an instruction step to come. -/
theorem witness_FinishedProgramStaysFinished :
    let s := { code 0x12 0x00 with dt := 1, env := { Env.initial with events := [.insn quiet, .tick] } }
    s.finished ∧ ∀ rom, Event.reset rom ∉ s.env.events :=
  ⟨⟨rfl, 0x200, rfl, rfl⟩, fun rom h => by simp at h⟩

end Sys2Proof.Tests
end

/-! PROOFS. The family 30_encoding.md: decoding by the rows of the opcode map (R75). -/

namespace Sys2Proof

/-- Two rows whose literal bits differ where both masks test, so no word is in both (R75). -/
def OpRow.Disjoint (r r' : OpRow) : Prop := r.bits &&& r'.mask ≠ r'.bits &&& r.mask

namespace OpRow

theorem matches_iff {r : OpRow} {w : Word} : r.matches w = true ↔ w &&& r.mask = r.bits := beq_iff_eq

theorem disjoint_symm : Std.Symm OpRow.Disjoint := ⟨fun _ _ h => h.symm⟩

theorem Disjoint.not_both {r r' : OpRow} (h : r.Disjoint r') {w : Word} (hr : r.matches w = true) :
    ¬ r'.matches w = true := fun hr' => h <|
  calc r.bits &&& r'.mask
    _ = w &&& r.mask &&& r'.mask := by rw [matches_iff.1 hr]
    _ = w &&& r'.mask &&& r.mask := by rw [BitVec.and_assoc, BitVec.and_comm r.mask, BitVec.and_assoc]
    _ = r'.bits &&& r.mask := by rw [matches_iff.1 hr']

end OpRow

/-- R75's derived remark, read off the masks and bits of the 34 rows. -/
theorem opRows_pairwise_disjoint : opRows.Pairwise OpRow.Disjoint := by
  unfold OpRow.Disjoint
  decide

theorem eq_of_matches_both {r r' : OpRow} (hr : r ∈ opRows) (hr' : r' ∈ opRows) {w : Word}
    (hw : r.matches w = true) (hw' : r'.matches w = true) : r = r' := by
  by_contra hne
  have := OpRow.disjoint_symm
  have hd : r.Disjoint r' := opRows_pairwise_disjoint.forall hr hr' hne
  exact hd.not_both hw hw'

theorem decodeWord_of_matches {r : OpRow} (hr : r ∈ opRows) {w : Word} (hw : r.matches w = true) :
    decodeWord w = r.build w := by
  unfold decodeWord
  split
  case h_1 r' hfound =>
    have hr' : r' ∈ opRows := List.mem_of_find?_eq_some hfound
    have hw' : r'.matches w = true := List.find?_some (p := fun r : OpRow => r.matches w) hfound
    rw [eq_of_matches_both hr' hr hw' hw]
  case h_2 hnone => exact absurd hw (List.find?_eq_none.1 hnone r hr)

theorem decodeWord_of_no_match {w : Word} (h : ∀ r ∈ opRows, ¬ r.matches w = true) : decodeWord w = .nop w := by
  rw [decodeWord, List.find?_eq_none.2 h]

/-- Settles O6: the rows are pairwise disjoint, so the row found first is the only one the word is in. -/
theorem decodingFollowsTheMatchingRow : Obligations.DecodingFollowsTheMatchingRow :=
  ⟨fun _ _ hr hw => decodeWord_of_matches hr (OpRow.matches_iff.2 hw),
   fun _ h => decodeWord_of_no_match fun r hr hw => h r hr (OpRow.matches_iff.1 hw)⟩

end Sys2Proof

/-! PROOFS. The family 40_flow.md: NOP, RET, JP, CALL, the skips on equality and JP_V0 (R90 to R94, R96, R98). -/

namespace Sys2Proof.Machine

/-! ### What an instruction of the flow does -/

/-- The highest sum of JP_V0 is 0x10FE, so it does not wrap (R98). -/
theorem zextAddr_add_zextByte_toNat (nnn : Addr12) (b : Byte) :
    (zextAddr nnn + zextByte b).toNat = nnn.toNat + b.toNat := by
  have := nnn.isLt; have := b.isLt
  rw [BitVec.toNat_add_of_lt, zextAddr_toNat, zextByte_toNat]
  rw [zextAddr_toNat, zextByte_toNat]; omega

/-- The skip policy with equality as its condition (R94, R96). -/
theorem State.skipIf_beq_pc (s : State) (a b : Byte) :
    (a = b → (s.skipIf (a == b)).pc = s.pc + 4) ∧ (a ≠ b → (s.skipIf (a == b)).pc = s.pc + 2) :=
  ⟨fun h => by simp [h], fun h => by simp [h]⟩

/-- A new stack, depth and `PC`, as a call and a return write them, leave every other part. -/
theorem State.frame_stack (s : State) (stack : Vector Word Config.stackDepth) (sp : Fin (Config.stackDepth + 1)) (pc : Word) :
    Frame [] [.stack] s { s with stack := stack, sp := sp, pc := pc } := by
  constructor <;> simp [State.readV]

theorem exec_call_of_lt (nnn : Addr12) {s : State} (h : s.sp.val < 16) : exec (.call nnn) s =
    .next { s with stack := s.stack.set s.sp.val (s.pc + 2) h, sp := ⟨s.sp.val + 1, Nat.succ_lt_succ h⟩, pc := zextAddr nnn } := by
  obtain ⟨_, e⟩ | ⟨hfull, _⟩ := execCall_cases nnn s
  · exact e
  · exact absurd hfull (Nat.ne_of_lt h)

theorem exec_call_of_full (nnn : Addr12) {s : State} (h : s.sp.val = 16) :
    exec (.call nnn) s = .next (s.raise .stackOverflow (some (encode (.call nnn))) none) := by
  obtain ⟨hroom, _⟩ | ⟨_, e⟩ := execCall_cases nnn s
  · exact absurd h (Nat.ne_of_lt hroom)
  · exact e

theorem exec_ret_of_pos {s : State} (h : 0 < s.sp.val) : exec .ret s =
    .next { s with sp := ⟨s.sp.val - 1, by omega⟩, pc := s.stack[s.sp.val - 1]'(by omega) } := by
  obtain ⟨_, e⟩ | ⟨hempty, _⟩ := execRet_cases s
  · exact e
  · exact absurd hempty (Nat.ne_of_gt h)

theorem exec_ret_of_empty {s : State} (h : s.sp.val = 0) :
    exec .ret s = .next (s.raise .stackUnderflow (some (encode .ret)) none) := by
  obtain ⟨hpos, _⟩ | ⟨_, e⟩ := execRet_cases s
  · exact absurd h (Nat.ne_of_gt hpos)
  · exact e

/-! ### The obligations -/

/-- Settles O20: JP and JP_V0 only set PC, and neither target needs more than 16 bits. -/
theorem jumpsSetThePc : Obligations.JumpsSetThePc := fun nnn s =>
  ⟨⟨Laws.RoundTrip.jp nnn rfl, _, rfl, zextAddr_toNat nnn, s.frame_setPc _⟩,
   ⟨Laws.RoundTrip.jpV0 nnn rfl, _, rfl, zextAddr_add_zextByte_toNat nnn _, s.frame_setPc _⟩⟩

/-- Settles O21: a call with room writes one stack entry, the depth and PC; a call without is the fault alone. -/
theorem callPushesOrOverflows : Obligations.CallPushesOrOverflows := fun nnn s => by
  refine ⟨Laws.RoundTrip.call nnn rfl, fun hroom => ?_, fun hfull => exec_call_of_full nnn hfull⟩
  refine ⟨_, exec_call_of_lt nnn hroom, zextAddr_toNat nnn, rfl, fun k hk => ?_, s.frame_stack _ _ _⟩
  simp only [Vector.getElem_set, eq_comm (a := k)]

/-- Settles O22: a return with an entry to pop writes the depth and PC; one without is the fault alone. -/
theorem retPopsOrUnderflows : Obligations.RetPopsOrUnderflows := fun s =>
  ⟨Laws.RoundTrip.ret rfl,
   fun hpos => ⟨_, exec_ret_of_pos hpos, rfl, rfl, rfl, s.frame_stack _ _ _⟩,
   fun hempty => exec_ret_of_empty hempty⟩

/-- Settles O24: both are the skip policy on an equality, which X = Y makes true. -/
theorem skipsOnEqual : Obligations.SkipsOnEqual := fun x y nn s => by
  obtain ⟨himm, himm'⟩ := s.skipIf_beq_pc (s.readV x) nn
  obtain ⟨hreg, hreg'⟩ := s.skipIf_beq_pc (s.readV x) (s.readV y)
  exact ⟨⟨Laws.RoundTrip.seImm x nn rfl, _, rfl, himm, himm', s.frame_skipIf _⟩,
    ⟨Laws.RoundTrip.seReg x y rfl, _, rfl, hreg, hreg', fun hxy => hreg (congrArg s.readV hxy), s.frame_skipIf _⟩⟩

/-- Settles O19: an unassigned word is a well-formed no-op, which the decoder gives back, and NOP only advances PC. -/
theorem nopOnlyAdvances : Obligations.NopOnlyAdvances := fun w s =>
  ⟨fun hw => Laws.RoundTrip.nop w (by simp [Instr.wellFormed, nopWordOk, hw]), _, rfl, rfl, s.frame_advance 2⟩

end Sys2Proof.Machine

/-! PROOFS. The family 41_alu.md: the loads and ADD_imm, ADD_reg and SUB (R110 to R112, R116, R117). -/

namespace Sys2Proof.Machine

/-! ### What one result, or a result and a flag, leave in the registers and alone -/

/-- A load, copy or ADD_imm leaves everything but its destination (R110 to R112). -/
theorem State.frame_writeV_advance (s : State) (x : RegIx) (b : Byte) (n : Word) :
    Frame [x] [] s ((s.writeV x b).advance n) :=
  (s.frame_writeV x b).trans (State.frame_advance _ n)

/-- A flag writer leaves everything but its destination and VF (R116 to R120). -/
theorem State.frame_writeWithFlag_advance (s : State) (x : RegIx) (p : Byte × Byte) (n : Word) :
    Frame [x, VF] [] s ((s.writeWithFlag x p).advance n) :=
  (s.frame_writeWithFlag x p).trans (State.frame_advance _ n)

@[simp] theorem State.readV_writeWithFlag_flag (s : State) (x : RegIx) (p : Byte × Byte) :
    (s.writeWithFlag x p).readV VF = p.2 := by
  rw [State.readV_writeWithFlag, if_pos rfl]

/-- Only a destination other than VF keeps the result (R121). -/
theorem State.readV_writeWithFlag_result (s : State) {x : RegIx} (p : Byte × Byte) (h : x ≠ VF) :
    (s.writeWithFlag x p).readV x = p.1 := by
  rw [State.readV_writeWithFlag, if_neg h, if_pos rfl]

/-! ### The obligations -/

/-- Settles O26: each is one register write and an advance; ADD_imm's sum is the byte sum, modulo 256. -/
theorem loadCopyAndAddImmediate : Obligations.LoadCopyAndAddImmediate := fun x y nn s => by
  have hsum : (((s.writeV x (s.readV x + nn)).advance 2).readV x).toNat = ((s.readV x).toNat + nn.toNat) % 256 := by
    rw [State.readV_advance, State.readV_writeV_same, BitVec.toNat_add]
  exact ⟨⟨Laws.RoundTrip.ldImm x nn rfl, _, rfl, s.readV_writeV_same x nn, rfl, s.frame_writeV_advance x _ 2⟩,
    ⟨Laws.RoundTrip.addImm x nn rfl, _, rfl, hsum, rfl, s.frame_writeV_advance x _ 2⟩,
    ⟨Laws.RoundTrip.ldReg x y rfl, _, rfl, s.readV_writeV_same x _, rfl, s.frame_writeV_advance x _ 2⟩⟩

/-- Settles O28: the sum and its carry, written flag last. -/
theorem addRegisterSumAndCarry : Obligations.AddRegisterSumAndCarry := fun x y s => by
  refine ⟨Laws.RoundTrip.addReg x y rfl, _, rfl, ?flag, fun hx => ?result, rfl, s.frame_writeWithFlag_advance x _ 2⟩
  case flag => rw [State.readV_advance, State.readV_writeWithFlag_flag, addWithCarry_flag]
  case result => rw [State.readV_advance, State.readV_writeWithFlag_result s _ hx, addWithCarry_result]

/-- Settles O29: the difference and its no-borrow bit, written flag last. -/
theorem subDifferenceAndNoBorrow : Obligations.SubDifferenceAndNoBorrow := fun x y s => by
  refine ⟨Laws.RoundTrip.sub x y rfl, _, rfl, ?flag, fun hx => ?result, rfl, s.frame_writeWithFlag_advance x _ 2⟩
  case flag => rw [State.readV_advance, State.readV_writeWithFlag_flag, subNoBorrow_flag]
  case result => rw [State.readV_advance, State.readV_writeWithFlag_result s _ hx, subNoBorrow_result]

end Sys2Proof.Machine

/-! PROOFS. The family 42_index_memory.md: LD_I and ADD_I (R130, R131). -/

namespace Sys2Proof.Machine

/-! ### What a new address register leaves alone, and the sum it takes -/

/-- LD_I, ADD_I and LD_F leave everything but `I` (R130 to R132). -/
theorem State.frame_setI_advance (s : State) (a n : Word) : Frame [] [.i] s ((s.setI a).advance n) :=
  (s.frame_setI a).trans (State.frame_advance _ n)

/-- The sum of ADD_I is reduced modulo 65536, not to the 12 bits of an address (R131). -/
theorem add_zextByte_toNat (a : Word) (b : Byte) : (a + zextByte b).toNat = (a.toNat + b.toNat) % 65536 := by
  rw [BitVec.toNat_add, zextByte_toNat]

/-! ### The obligations -/

/-- Settles O34: each is one write of I and an advance; ADD_I's sum is the word sum, modulo 65536. -/
theorem loadAndAddToAddressRegister : Obligations.LoadAndAddToAddressRegister := fun nnn x s =>
  ⟨⟨Laws.RoundTrip.ldI nnn rfl, _, rfl, zextAddr_toNat nnn, rfl, s.frame_setI_advance _ 2⟩,
   ⟨Laws.RoundTrip.addI x rfl, _, rfl, add_zextByte_toNat s.i _, rfl, s.frame_setI_advance _ 2⟩⟩

end Sys2Proof.Machine

/-! PROOFS. The family 43_display.md: CLS (R140). -/

namespace Sys2Proof.Machine

/-- A new framebuffer is a change to no part but the framebuffer. -/
theorem State.frame_setFb (s : State) (f : FrameBuffer) : Frame [] [.fb] s { s with fb := f } where
  regs _ _ := rfl
  i _ := rfl
  stack _ := ⟨rfl, rfl⟩
  dt _ := rfl
  st _ := rfl
  wait _ := rfl
  fault _ := rfl
  mem _ _ := rfl
  fb h := absurd (List.mem_singleton_self _) h
  rest := ⟨rfl, rfl⟩

/-- Settles O41: CLS is one write of the clear framebuffer and an advance. -/
theorem clearScreenClears : Obligations.ClearScreenClears := fun s =>
  ⟨Laws.RoundTrip.cls rfl, _, rfl, FrameBuffer.pixel_clear, rfl,
    (s.frame_setFb FrameBuffer.clear).trans (State.frame_advance _ 2)⟩

end Sys2Proof.Machine

/-! PROOFS. The family 70_reset_and_hazards.md: reset, and reset with load (R190, R193). -/

namespace Sys2Proof.Machine

/-! ### What reset leaves in the registers, the stack and memory (R190) -/

@[simp] theorem State.readV_reset (r : RegIx) : State.reset.readV r = 0 := by
  simp [State.readV, State.reset]

@[simp] theorem State.stack_reset (k : Nat) (h : k < 16) : State.reset.stack[k]'h = 0 := by
  simp [State.reset]

/-- Nothing is written at reset, so every byte holds what an unwritten one does. -/
theorem Memory.read_reset (a : Nat) : State.reset.mem.read a = Memory.initByte a := rfl

theorem Memory.read_reset_font {a : Nat} (h : a < 80) : State.reset.mem.read a = Config.font.getD a 0 :=
  (Memory.read_reset a).trans (Memory.initByte_font h)

theorem Memory.read_reset_above {a : Nat} (h : 80 ≤ a) : State.reset.mem.read a = 0 :=
  (Memory.read_reset a).trans (Memory.initByte_above h)

theorem length_font : Config.font.length = 80 := rfl

/-! ### A block write, byte by byte -/

theorem Memory.read_writeBlock_inside (bs : List Byte) (m : Memory) (base k : Nat) (h : k < bs.length) :
    (m.writeBlock base bs).read (base + k) = bs[k] := by
  rw [Memory.read_writeBlock, if_pos ⟨Nat.le_add_right base k, Nat.add_lt_add_left h base⟩, Nat.add_sub_cancel_left,
    List.getD_eq_getElem _ _ h]

theorem Memory.read_writeBlock_outside (bs : List Byte) (m : Memory) {base a : Nat}
    (h : a < base ∨ base + bs.length ≤ a) : (m.writeBlock base bs).read a = m.read a := by
  rw [Memory.read_writeBlock, if_neg (by omega)]

/-! ### What reset with load answers (R193) -/

theorem resetAndLoad_of_le {rom : List Byte} (s : State) (h : rom.length ≤ 3584) : resetAndLoad rom s =
    .next { State.reset with
      mem := State.reset.mem.writeBlock 0x200 rom, shiftSrc := s.shiftSrc, env := s.env } :=
  if_neg (Nat.not_lt.mpr h)

theorem resetAndLoad_of_lt {rom : List Byte} (s : State) (h : 3584 < rom.length) :
    resetAndLoad rom s = .refused (.romTooLarge rom.length) :=
  if_pos h

/-! ### The obligations -/

/-- Settles O13: the step is reset with load, which is a block write at 0x200 over the reset state or the refusal. -/
theorem resetEventLoadsTheImage : Obligations.ResetEventLoadsTheImage := fun s rom rest hevents => by
  rw [step_of_event hevents]
  refine ⟨fun hfits => ?loaded, fun hlarge => resetAndLoad_of_lt _ hlarge⟩
  case loaded =>
    refine ⟨_, resetAndLoad_of_le _ hfits, ?image, ?others, rfl, rfl⟩
    case image => exact Memory.read_writeBlock_inside rom State.reset.mem 0x200
    case others => exact fun _ => Memory.read_writeBlock_outside rom State.reset.mem

/-- Settles O1: the table of R190, row by row; memory is the font and 0x00 above it. -/
theorem resetGivesTheStatedValues : Obligations.ResetGivesTheStatedValues := by
  refine ⟨State.readV_reset, rfl, rfl, rfl, State.stack_reset, rfl, rfl, rfl, rfl, rfl, rfl, length_font, ?font, ?above, ?pixels⟩
  case font => exact fun _ => Memory.read_reset_font
  case above => exact fun _ h _ => Memory.read_reset_above h
  case pixels => exact FrameBuffer.pixel_clear

end Sys2Proof.Machine

/-! PROOFS. The family 30_encoding.md: the round trips, the unassigned words and the known words (R70, R75 to R77). -/

namespace Sys2Proof

/-! ### Decoding what was encoded -/

/-- The decoder gives back every well-formed instruction, constructor by constructor. -/
theorem decodeWord_encode {i : Instr} (h : i.wellFormed = true) : decodeWord (encode i) = i :=
  match i with
  | .cls => Laws.RoundTrip.cls h
  | .ret => Laws.RoundTrip.ret h
  | .jp nnn => Laws.RoundTrip.jp nnn h
  | .call nnn => Laws.RoundTrip.call nnn h
  | .seImm x nn => Laws.RoundTrip.seImm x nn h
  | .sneImm x nn => Laws.RoundTrip.sneImm x nn h
  | .seReg x y => Laws.RoundTrip.seReg x y h
  | .ldImm x nn => Laws.RoundTrip.ldImm x nn h
  | .addImm x nn => Laws.RoundTrip.addImm x nn h
  | .ldReg x y => Laws.RoundTrip.ldReg x y h
  | .or x y => Laws.RoundTrip.or x y h
  | .and x y => Laws.RoundTrip.and x y h
  | .xor x y => Laws.RoundTrip.xor x y h
  | .addReg x y => Laws.RoundTrip.addReg x y h
  | .sub x y => Laws.RoundTrip.sub x y h
  | .shr x y => Laws.RoundTrip.shr x y h
  | .subn x y => Laws.RoundTrip.subn x y h
  | .shl x y => Laws.RoundTrip.shl x y h
  | .sneReg x y => Laws.RoundTrip.sneReg x y h
  | .ldI nnn => Laws.RoundTrip.ldI nnn h
  | .jpV0 nnn => Laws.RoundTrip.jpV0 nnn h
  | .rnd x nn => Laws.RoundTrip.rnd x nn h
  | .drw x y n => Laws.RoundTrip.drw x y n h
  | .skp x => Laws.RoundTrip.skp x h
  | .sknp x => Laws.RoundTrip.sknp x h
  | .ldVxDt x => Laws.RoundTrip.ldVxDt x h
  | .ldVxK x => Laws.RoundTrip.ldVxK x h
  | .ldDtVx x => Laws.RoundTrip.ldDtVx x h
  | .ldStVx x => Laws.RoundTrip.ldStVx x h
  | .addI x => Laws.RoundTrip.addI x h
  | .ldF x => Laws.RoundTrip.ldF x h
  | .ldB x => Laws.RoundTrip.ldB x h
  | .stBlock x => Laws.RoundTrip.stBlock x h
  | .ldBlock x => Laws.RoundTrip.ldBlock x h
  | .nop w => Laws.RoundTrip.nop w h

/-- The two bytes of a word, high byte first, make the word again (R50). -/
theorem wordOfBytes_bytes (w : Word) : wordOfBytes (w.extractLsb' 8 8) (w.extractLsb' 0 8) = w := by
  apply BitVec.eq_of_toNat_eq
  rw [wordOfBytes, append_toNat, field_toNat, field_toNat]
  omega

theorem decode_bytesOfWord (w : Word) (rest : List Byte) : decode (bytesOfWord w ++ rest) = .ok (decodeWord w, rest) := by
  simp only [bytesOfWord, List.cons_append, List.nil_append, decode, wordOfBytes_bytes]

/-- Settles O4: the bytes make the word again, and its decoding is the round trip of the instruction's constructor. -/
theorem decodingAnEncodedInstructionGivesItBack : Obligations.DecodingAnEncodedInstructionGivesItBack := fun i rest hi => by
  rw [encodeBytes, decode_bytesOfWord, decodeWord_encode hi]

/-! ### The no-ops are the unassigned words (R77) -/

/-- An instruction that is the no-op descriptor. -/
def Instr.isNop : Instr → Bool
  | .nop _ => true
  | _ => false

@[simp] theorem isNop_nop (w : Word) : (Instr.nop w).isNop = true := rfl

theorem isNop_eq_false {i : Instr} (h : ∀ w, i ≠ .nop w) : i.isNop = false := by
  cases i
  case nop w => exact absurd rfl (h w)
  all_goals rfl

theorem nibble_cases : ∀ c : Nibble, c = 0 ∨ c = 1 ∨ c = 2 ∨ c = 3 ∨ c = 4 ∨ c = 5 ∨ c = 6 ∨ c = 7 ∨ c = 8 ∨ c = 9 ∨
    c = 10 ∨ c = 11 ∨ c = 12 ∨ c = 13 ∨ c = 14 ∨ c = 15 := by decide

/-- The low nibbles of class 8 that R77 assigns in one range, as its rows name them. -/
theorem nibble_le_7_iff : ∀ n : Nibble, n.toNat ≤ 7 ↔ n = 0 ∨ n = 1 ∨ n = 2 ∨ n = 3 ∨ n = 4 ∨ n = 5 ∨ n = 6 ∨ n = 7 := by decide

/-- R76 and R77 agree, class by class: a word is decoded to a no-op exactly if it is not assigned. -/
theorem isNop_decodeWord (w : Word) : (decodeWord w).isNop = !assigned w := by
  rw [decodeWord_eq, assigned_eq]
  obtain hc | hc | hc | hc | hc | hc | hc | hc | hc | hc | hc | hc | hc | hc | hc | hc := nibble_cases (fieldClass w) <;>
    simp [hc, apply_ite Instr.isNop, isNop_eq_false, nibble_le_7_iff, beq_eq_decide, Bool.and_assoc]

/-- Settles O7: the tables of R76 and R77 agree, and the no-op of an unassigned word keeps the word. -/
theorem exactlyTheUnassignedWordsAreNops : Obligations.ExactlyTheUnassignedWordsAreNops := fun w => by
  constructor
  · intro h
    have hnop := isNop_decodeWord w
    rw [h, isNop_nop] at hnop
    simpa using hnop
  · exact fun h => Laws.RoundTrip.nop w (by simp [Instr.wellFormed, nopWordOk, h])

/-! ### Encoding what was decoded -/

section Formats
variable {w : Word} {c : Nibble}

theorem formatNNN_of_class (hc : fieldClass w = c) : formatNNN c (fieldNNN w) = w :=
  hc ▸ formatNNN_fields w
theorem formatXNN_of_class (hc : fieldClass w = c) : formatXNN c (fieldX w) (fieldNN w) = w :=
  hc ▸ formatXNN_fields w
theorem formatXYN_of_class (hc : fieldClass w = c) : formatXYN c (fieldX w) (fieldY w) (fieldN w) = w :=
  hc ▸ formatXYN_fields w
theorem formatXNN_of_low8 {nn : Byte} (h : fieldClass w = c ∧ fieldNN w = nn) : formatXNN c (fieldX w) nn = w :=
  h.2 ▸ formatXNN_of_class h.1
theorem formatXYN_of_low4 {n : Nibble} (h : fieldClass w = c ∧ fieldN w = n) : formatXYN c (fieldX w) (fieldY w) n = w :=
  h.2 ▸ formatXYN_of_class h.1

end Formats

theorem encode_ite {p : Prop} [Decidable p] {i j : Instr} {w : Word} (hi : p → encode i = w) (hj : encode j = w) :
    encode (if p then i else j) = w := by
  split
  case isTrue h => exact hi h
  case isFalse => exact hj

/-- Encoding gives the word back, row by row: a row's literal bits and its fields are the whole word. -/
theorem encode_decodeWord (w : Word) : encode (decodeWord w) = w := by
  rw [decodeWord_eq]
  iterate 2 refine encode_ite (fun h => h.2.symm) ?_
  iterate 2 refine encode_ite formatNNN_of_class ?_
  iterate 2 refine encode_ite formatXNN_of_class ?_
  refine encode_ite formatXYN_of_low4 ?_
  iterate 2 refine encode_ite formatXNN_of_class ?_
  iterate 2 refine encode_ite formatNNN_of_class ?_
  refine encode_ite formatXNN_of_class ?_
  refine encode_ite formatXYN_of_class ?_
  iterate 10 refine encode_ite formatXYN_of_low4 ?_
  iterate 11 refine encode_ite formatXNN_of_low8 ?_
  rfl

/-- Settles O5: the rows build no no-op, so a decoded no-op is one of R77's; and the encoder gives the word back. -/
theorem encodingADecodedWordGivesItBack : Obligations.EncodingADecodedWordGivesItBack := fun w => by
  refine ⟨?_, encode_decodeWord w⟩
  cases hd : decodeWord w
  case nop w' =>
    have he : w' = w := by simpa [hd, encode] using encode_decodeWord w
    have hn := isNop_decodeWord w
    rw [hd, isNop_nop] at hn
    simpa [Instr.wellFormed, nopWordOk, he] using hn.symm
  all_goals rfl

/-- Settles O8: one evaluation of the decoder per word. -/
theorem knownWordsDecode : Obligations.KnownWordsDecode := by
  unfold Obligations.KnownWordsDecode
  decide

end Sys2Proof

/-! PROOFS. The family 40_flow.md: a call and its return, and the skips on inequality (R91, R93, R95, R97). -/

namespace Sys2Proof.Machine

/-- The skip policy with inequality as its condition (R95, R97). -/
theorem State.skipIf_bne_pc (s : State) (a b : Byte) :
    (a ≠ b → (s.skipIf (a != b)).pc = s.pc + 4) ∧ (a = b → (s.skipIf (a != b)).pc = s.pc + 2) :=
  ⟨fun h => by simp [h], fun h => by simp [h]⟩

/-- Settles O25: both are the skip policy on an inequality, which X = Y makes false. -/
theorem skipsOnNotEqual : Obligations.SkipsOnNotEqual := fun x y nn s => by
  obtain ⟨himm, himm'⟩ := s.skipIf_bne_pc (s.readV x) nn
  obtain ⟨hreg, hreg'⟩ := s.skipIf_bne_pc (s.readV x) (s.readV y)
  exact ⟨⟨Laws.RoundTrip.sneImm x nn rfl, _, rfl, himm, himm', s.frame_skipIf _⟩,
    ⟨Laws.RoundTrip.sneReg x y rfl, _, rfl, hreg, hreg', fun hxy => hreg' (congrArg s.readV hxy), s.frame_skipIf _⟩⟩

/-- Settles O23: the return pops the entry that the call pushed at the old depth. -/
theorem callThenRetReturns : Obligations.CallThenRetReturns := fun nnn s hroom => by
  refine ⟨_, _, exec_call_of_lt nnn hroom, exec_ret_of_pos (Nat.succ_pos _), ?pc, rfl, fun k hk hlive => ?live,
    s.frame_stack _ _ _⟩
  case pc => exact Vector.getElem_set_self ..
  case live => exact Vector.getElem_set_ne hroom hk (Nat.ne_of_gt hlive)

end Sys2Proof.Machine

/-! PROOFS. The family 41_alu.md: the logic, SUBN, the shifts and RND (R113 to R115, R118 to R120, R122). -/

namespace Sys2Proof.Machine

/-! ### The shift source (R118, R120) -/

theorem State.shiftSource_eq {s : State} {x y : RegIx} {b : Byte} (hx : s.shiftSrc = .vx → b = s.readV x)
    (hy : s.shiftSrc = .vy → b = s.readV y) : s.shiftSource x y = b := by
  unfold State.shiftSource
  split
  case h_1 h => exact (hx h).symm
  case h_2 h => exact (hy h).symm

/-! ### The obligations -/

/-- Settles O27: each is one register write and an advance, of the operation on the two bytes bit by bit. -/
theorem logicLeavesTheFlag : Obligations.LogicLeavesTheFlag := fun x y s => by
  have hwrite (b : Byte) : ((s.writeV x b).advance 2).readV x = b := by simp
  refine ⟨⟨Laws.RoundTrip.or x y rfl, _, rfl, fun k => ?or, rfl, s.frame_writeV_advance x _ 2⟩,
    ⟨Laws.RoundTrip.and x y rfl, _, rfl, fun k => ?and, rfl, s.frame_writeV_advance x _ 2⟩,
    ⟨Laws.RoundTrip.xor x y rfl, _, rfl, fun k => ?xor, rfl, s.frame_writeV_advance x _ 2⟩⟩
  case or => rw [hwrite, BitVec.getLsbD_or]
  case and => rw [hwrite, BitVec.getLsbD_and]
  case xor => rw [hwrite, BitVec.getLsbD_xor]

/-- Settles O33: bit by bit the byte written is the conjunction of the port's byte and the mask. -/
theorem randomByteIsMasked : Obligations.RandomByteIsMasked := fun x nn s => by
  have hbit (k : Nat) : (((s.writeV x (s.randByte &&& nn)).advance 2).readV x).getLsbD k =
      (s.env.ports.randByte.getLsbD k && nn.getLsbD k) := by
    simp only [State.readV_advance, State.readV_writeV_same, BitVec.getLsbD_and, State.randByte]
  refine ⟨Laws.RoundTrip.rnd x nn rfl, _, rfl, fun k hk => ?clear, fun k hk => ?set, rfl, s.frame_writeV_advance x _ 2⟩
  case clear => rw [hbit, hk, Bool.and_false]
  case set => rw [hbit, hk, Bool.and_true]

/-- Settles O30: SUB's difference and no-borrow bit with the operands exchanged, written flag last. -/
theorem subnIsSubWithOperandsExchanged : Obligations.SubnIsSubWithOperandsExchanged := fun x y s => by
  refine ⟨Laws.RoundTrip.subn x y rfl, _, rfl, ?flag, fun hx => ?result, rfl, s.frame_writeWithFlag_advance x _ 2⟩
  case flag => rw [State.readV_advance, State.readV_writeWithFlag_flag, subNoBorrow_flag]
  case result => rw [State.readV_advance, State.readV_writeWithFlag_result s _ hx, subNoBorrow_result]

/-- Settles O31: under either strap the byte shifted is `b`, whose result and bit shifted out are written flag last. -/
theorem shiftsOfTheConfiguredSource : Obligations.ShiftsOfTheConfiguredSource := fun x y s b hx hy => by
  have hb : s.shiftSource x y = b := State.shiftSource_eq hx hy
  refine ⟨⟨Laws.RoundTrip.shr x y rfl, _, rfl, ?rflag, fun hne => ?right, rfl, s.frame_writeWithFlag_advance x _ 2⟩,
    ⟨Laws.RoundTrip.shl x y rfl, _, rfl, ?lflag, fun hne => ?left, rfl, s.frame_writeWithFlag_advance x _ 2⟩⟩
  case rflag => rw [State.readV_advance, State.readV_writeWithFlag_flag, shiftRight_flag, hb]
  case right => rw [State.readV_advance, State.readV_writeWithFlag_result s _ hne, shiftRight_result, hb]
  case lflag => rw [State.readV_advance, State.readV_writeWithFlag_flag, shiftLeft_flag, hb]
  case left => rw [State.readV_advance, State.readV_writeWithFlag_result s _ hne, shiftLeft_result, hb]

end Sys2Proof.Machine

/-! PROOFS. The family 42_index_memory.md: LD_F and the memory instructions (R132 to R136). -/

namespace Sys2Proof.Machine

/-! ### The range check of an access from `I` on, inside memory and outside (R53, R162, R164) -/

/-- The lowest address that does not exist is 4096, or `I` where it lies above (D7). -/
theorem ofNat_max_4096 (a : Word) : BitVec.ofNat 16 (max a.toNat 4096) = if a.toNat ≤ 4096 then 4096 else a := by
  split
  case isTrue h => rw [Nat.max_eq_right h]; rfl
  case isFalse h => rw [Nat.max_eq_left (Nat.le_of_not_le h), BitVec.ofNat_toNat, BitVec.setWidth_eq]

theorem State.checked_of_inside {s : State} {n : Nat} (h : n = 0 ∨ s.i.toNat + n ≤ 4096) (j : Instr) (done : State) :
    s.checked j n done = done := by
  obtain ⟨-, e⟩ | ⟨hout, -⟩ := s.checked_cases j n done
  · exact e
  · omega

theorem State.checked_of_outside {s : State} {n : Nat} (hn : 0 < n) (h : 4096 < s.i.toNat + n) (j : Instr) (done : State) :
    s.checked j n done = { s with fault :=
      { kind := .memRange, pc := s.pc, opcode := some (encode j), addr := some (if s.i.toNat ≤ 4096 then 4096 else s.i) } } := by
  obtain ⟨hin, -⟩ | ⟨-, e⟩ := s.checked_cases j n done
  · omega
  · rw [e, ofNat_max_4096]; rfl

/-! ### What a store and a block load leave alone -/

theorem State.frame_setMem (s : State) (m : Memory) : Frame [] [.mem] s { s with mem := m } := by
  constructor <;> simp [State.readV]

theorem State.frame_setRegs (s : State) (v : Vector Byte 16) {regs : List RegIx}
    (h : ∀ r, r ∉ regs → State.readV { s with v := v } r = s.readV r) : Frame regs [] s { s with v := v } := by
  constructor
  case regs => exact h
  all_goals simp

/-! ### What a register block leaves in memory, and a block of memory in the registers -/

/-- A stored block holds `V[k]` at `I + k` (R134). -/
theorem State.read_stored_block (s : State) {x k : RegIx} (h : k.toNat ≤ x.toNat) (m : Memory) (base : Nat) :
    (m.writeBlock base (s.regsUpTo x)).read (base + k.toNat) = s.readV k := by
  rw [Memory.read_writeBlock, s.length_regsUpTo, if_pos ⟨Nat.le_add_right .., by omega⟩, Nat.add_sub_cancel_left,
    s.getD_regsUpTo x k h]

/-- A loaded block of `n` bytes is in `V[0]` to `V[n - 1]`, and the registers above keep theirs (R135). -/
theorem State.readV_loaded_block (s : State) (m : Memory) (base n : Nat) (k : RegIx) :
    State.readV { s with v := loadFrom s.v 0 (m.readBlock base n) } k =
      if k.toNat < n then m.read (base + k.toNat) else s.readV k := by
  rw [State.readV, loadFrom_get _ _ _ _ k.isLt, Memory.length_readBlock, Nat.zero_add, Nat.sub_zero]
  split
  case isTrue h => rw [if_pos h.2, Memory.getD_readBlock _ _ _ _ h.2]
  case isFalse h => rw [if_neg fun hk => h ⟨Nat.zero_le _, hk⟩]; rfl

theorem mem_all_registers : ∀ r : RegIx, r ∈ ([0, 1, 2, 3, 4, 5, 6, 7, 8, 9, 10, 11, 12, 13, 14, 15] : List RegIx) := by decide

/-! ### The memory instructions inside memory -/

theorem exec_ldB_of_inside (x : RegIx) {s : State} (h : s.i.toNat + 2 ≤ 4095) : exec (.ldB x) s =
    .next (State.advance { s with mem := s.mem.writeBlock s.i.toNat (bcdDigits (s.readV x)) } 2) :=
  congrArg _ (State.checked_of_inside (by omega) _ _)

theorem exec_stBlock_of_inside {x : RegIx} {s : State} (h : s.i.toNat + x.toNat ≤ 4095) : exec (.stBlock x) s =
    .next (State.advance { s with mem := s.mem.writeBlock s.i.toNat (s.regsUpTo x) } 2) :=
  congrArg _ (State.checked_of_inside (by omega) _ _)

theorem exec_ldBlock_of_inside {x : RegIx} {s : State} (h : s.i.toNat + x.toNat ≤ 4095) : exec (.ldBlock x) s =
    .next (State.advance { s with v := loadFrom s.v 0 (s.mem.readBlock s.i.toNat (x.toNat + 1)) } 2) :=
  congrArg _ (State.checked_of_inside (by omega) _ _)

/-! ### The obligations -/

/-- Settles O35: the digit is below 16, so its glyph ends inside the 80 bytes of the font. -/
theorem glyphAddressOfTheLowDigit : Obligations.GlyphAddressOfTheLowDigit := fun x s => by
  have haddr : (glyphAddress (lowNibble (s.readV x))).toNat = 5 * ((s.readV x).toNat % 16) := by
    rw [glyphAddress_toNat, lowNibble_toNat]
  refine ⟨Laws.RoundTrip.ldF x rfl, _, rfl, haddr, ?inside, rfl, s.frame_setI_advance _ 2⟩
  case inside =>
    rw [State.advance_i, State.setI_i, haddr]
    omega

/-- Settles O36: inside memory the three digits are a block write; outside, the check alone acts. -/
theorem decimalDigitsAreStored : Obligations.DecimalDigitsAreStored := fun x s => by
  refine ⟨Laws.RoundTrip.ldB x rfl, fun hin => ?stored,
    fun hout => congrArg _ (State.checked_of_outside (by decide) (by omega) _ _)⟩
  case stored =>
    obtain ⟨h, t, o, hbs, hh, ht, ho, -⟩ := bcdDigits_spell (s.readV x)
    have hread := Memory.read_writeBlock_inside [h, t, o] s.mem s.i.toNat
    have hother (a : Nat) := Memory.read_writeBlock_outside [h, t, o] s.mem (base := s.i.toNat) (a := a)
    refine ⟨_, exec_ldB_of_inside x hin, ?_, ?_, ?_, ?_, rfl, (s.frame_setMem _).trans (State.frame_advance _ 2)⟩ <;>
      simp only [State.advance_mem, hbs]
    · exact (congrArg _ (hread 0 (by simp))).trans hh
    · exact (congrArg _ (hread 1 (by simp))).trans ht
    · exact (congrArg _ (hread 2 (by simp))).trans ho
    · exact hother

/-- Settles O37: inside memory the registers are a block write; outside, the check alone acts. -/
theorem registerBlockIsStored : Obligations.RegisterBlockIsStored := fun x s => by
  refine ⟨Laws.RoundTrip.stBlock x rfl, fun hin => ?stored,
    fun hout => congrArg _ (State.checked_of_outside (Nat.succ_pos _) (by omega) _ _)⟩
  case stored =>
    refine ⟨_, exec_stBlock_of_inside hin, fun k hk => s.read_stored_block hk _ _, fun a ha => ?_, rfl,
      (s.frame_setMem _).trans (State.frame_advance _ 2)⟩
    exact Memory.read_writeBlock_outside _ _ (by rwa [s.length_regsUpTo])

/-- Settles O38: inside memory the block is in the registers up to X; outside, the check alone acts. -/
theorem registerBlockIsLoaded : Obligations.RegisterBlockIsLoaded := fun x s => by
  refine ⟨Laws.RoundTrip.ldBlock x rfl, fun hin => ?loaded,
    fun hout => congrArg _ (State.checked_of_outside (Nat.succ_pos _) (by omega) _ _)⟩
  case loaded =>
    have hread := s.readV_loaded_block s.mem s.i.toNat (x.toNat + 1)
    refine ⟨_, exec_ldBlock_of_inside hin, fun k hk => ?below, fun k hk => ?above, rfl,
      (s.frame_setRegs _ fun r hr => absurd (mem_all_registers r) hr).trans (State.frame_advance _ 2)⟩
    case below => exact (hread k).trans (if_pos (by omega))
    case above => exact (hread k).trans (if_neg (by omega))

/-- Settles O39: the load finds the block where the store put it, because neither moves I. -/
theorem storedBlockLoadsBack : Obligations.StoredBlockLoadsBack := fun x s t u hin ht hi hmem => by
  obtain rfl := Host.Outcome.next.inj ((exec_stBlock_of_inside hin).symm.trans ht)
  have hui : u.i.toNat = s.i.toNat := congrArg BitVec.toNat hi
  refine ⟨_, exec_ldBlock_of_inside (by omega), fun k hk => ?_⟩
  rw [State.readV_advance, u.readV_loaded_block, if_pos (by omega), hmem, hui]
  exact s.read_stored_block hk _ _

/-- Settles O40: the block starts at the next PC, so the next fetch reads V[0] and V[1] out of it. -/
theorem storedCodeIsFetchedNext : Obligations.StoredCodeIsFetchedNext := fun x s hx hi hin => by
  refine ⟨_, exec_stBlock_of_inside hin, fetch_eq_ok.mpr ?_⟩
  rw [State.advance_pc, State.advance_mem, ← hi]
  refine ⟨by omega, congrArg₂ wordOfBytes ?_ ?_⟩
  · exact (s.read_stored_block (k := 0) (Nat.zero_le _) _ _).symm
  · exact (s.read_stored_block (k := 1) hx _ _).symm

end Sys2Proof.Machine

/-! PROOFS. The family 43_display.md: DRW (R141, R142), and the six flag writers with X = Y = F (R121). -/

namespace Sys2Proof.Machine

/-! ### The state after a sprite is drawn -/

/-- What DRW leaves when its sprite is inside memory (R141): the plot, then VF, then `PC`. -/
def State.drawn (s : State) (x y : RegIx) (n : Nibble) : State :=
  let p := drawSprite s.fb (s.mem.readBlock s.i.toNat n.toNat) (s.readV x) (s.readV y)
  (State.writeV { s with fb := p.1 } VF (flagByte p.2)).advance 2

theorem exec_drw_of_inside (x y : RegIx) {n : Nibble} {s : State} (h : n = 0 ∨ s.i.toNat + n.toNat - 1 ≤ 4095) :
    exec (.drw x y n) s = .next (s.drawn x y n) := by
  have hin : n.toNat = 0 ∨ s.i.toNat + n.toNat ≤ 4096 := h.imp (fun h => by rw [h]; rfl) (fun h => by omega)
  exact congrArg _ (State.checked_of_inside hin _ _)

/-- The pixels a sprite covers, by the bytes at `I` and the coordinates in the registers. -/
theorem State.plots_iff (s : State) (x y : RegIx) (n : Nibble) (r : Fin 32) (c : Fin 64) : s.plots x y n r c ↔
    ∃ k < n.toNat, ∃ j < 8, (s.mem.read (s.i.toNat + k)).getLsbD (7 - j) = true ∧
      ((s.readV x).toNat + j) % 64 = c.val ∧ ((s.readV y).toNat + k) % 32 = r.val := by
  simp only [State.plots, coversPixel, Memory.length_readBlock]
  refine exists_congr fun k => and_congr_right fun hk => ?_
  rw [Memory.getD_readBlock _ _ _ _ hk]

section Drawn
variable (s : State) (x y : RegIx) (n : Nibble)

/-- A sprite has at most 15 rows, so no pixel is plotted twice. -/
theorem State.length_sprite_le : (s.mem.readBlock s.i.toNat n.toNat).length ≤ 32 := by
  have := n.isLt
  rw [Memory.length_readBlock]
  omega

theorem State.drawn_pixel_of_plots {r : Fin 32} {c : Fin 64} (h : s.plots x y n r c) :
    (s.drawn x y n).fb.pixel r c = !s.fb.pixel r c :=
  (drawSprite_pixel s.fb (s.length_sprite_le n) _ _ r c).1 h

theorem State.drawn_pixel_of_not_plots {r : Fin 32} {c : Fin 64} (h : ¬ s.plots x y n r c) :
    (s.drawn x y n).fb.pixel r c = s.fb.pixel r c :=
  (drawSprite_pixel s.fb (s.length_sprite_le n) _ _ r c).2 h

theorem State.drawn_flag : (s.drawn x y n).readV VF =
    flagByte (drawSprite s.fb (s.mem.readBlock s.i.toNat n.toNat) (s.readV x) (s.readV y)).2 :=
  State.readV_writeV_same _ _ _

theorem State.drawn_flag_eq_one :
    (s.drawn x y n).readV VF = 1 ↔ ∃ r c, s.plots x y n r c ∧ s.fb.pixel r c = true := by
  rw [State.drawn_flag, flagByte_eq_one]
  exact drawSprite_hit s.fb (s.length_sprite_le n) _ _

theorem State.drawn_flag_zero_or_one : (s.drawn x y n).readV VF = 0 ∨ (s.drawn x y n).readV VF = 1 := by
  rw [State.drawn_flag]
  cases (drawSprite s.fb (s.mem.readBlock s.i.toNat n.toNat) (s.readV x) (s.readV y)).2
  case false => exact .inl rfl
  case true => exact .inr rfl

/-- The pixels that go from set to clear are the covered ones that were set. -/
theorem State.drawn_clears_iff (r : Fin 32) (c : Fin 64) :
    s.fb.pixel r c = true ∧ (s.drawn x y n).fb.pixel r c = false ↔ s.plots x y n r c ∧ s.fb.pixel r c = true := by
  by_cases h : s.plots x y n r c
  · simp [s.drawn_pixel_of_plots x y n h, h]
  · simp [s.drawn_pixel_of_not_plots x y n h, h]

theorem State.frame_drawn : Frame [VF] [.fb] s (s.drawn x y n) :=
  (s.frame_setFb _).trans (State.frame_writeV_advance _ VF _ 2)

end Drawn

/-! ### The obligations -/

/-- Settles O42: what the drawn state holds, with its covered pixels written out. -/
theorem spriteTurnsOverExactlyItsPixels : Obligations.SpriteTurnsOverExactlyItsPixels := fun x y n s => by
  refine ⟨Laws.RoundTrip.drw x y n rfl, fun hin => ⟨_, exec_drw_of_inside x y hin, fun r c h => ?covered, fun r c h => ?other,
    ?flag, s.drawn_flag_zero_or_one x y n, rfl, s.frame_drawn x y n⟩⟩
  case covered => exact s.drawn_pixel_of_plots x y n ((s.plots_iff x y n r c).mpr h)
  case other => exact s.drawn_pixel_of_not_plots x y n (mt (s.plots_iff x y n r c).mp h)
  case flag => simp only [s.drawn_flag_eq_one, s.drawn_clears_iff]

/-- Settles O43: the check alone acts. -/
theorem spriteOutsideMemoryFaults : Obligations.SpriteOutsideMemoryFaults := fun _ _ _ _ hn hout =>
  congrArg _ (State.checked_of_outside hn (by omega) _ _)

/-- Settles O44: the second sprite covers the pixels of the first, and turning a pixel over twice restores it. -/
theorem drawingTwiceRestoresTheScreen : Obligations.DrawingTwiceRestoresTheScreen := fun x y n s t hin ht hx hy => by
  obtain rfl := Host.Outcome.next.inj ((exec_drw_of_inside x y hin).symm.trans ht)
  have hplots (r c) : (s.drawn x y n).plots x y n r c ↔ s.plots x y n r c := by
    rw [State.plots, State.plots, hx, hy]; rfl
  refine ⟨_, exec_drw_of_inside x y hin, FrameBuffer.ext_pixel fun r c => ?restored, ?flag⟩
  case restored =>
    by_cases h : s.plots x y n r c
    · rw [State.drawn_pixel_of_plots _ x y n ((hplots r c).mpr h), s.drawn_pixel_of_plots x y n h, Bool.not_not]
    · rw [State.drawn_pixel_of_not_plots _ x y n (mt (hplots r c).mp h), s.drawn_pixel_of_not_plots x y n h]
  case flag =>
    rw [State.drawn_flag_eq_one]
    refine exists₂_congr fun r c => ?_
    rw [hplots]
    refine and_congr_right fun h => ?_
    rw [s.drawn_pixel_of_plots x y n h, Bool.not_eq_true']

/-- With VF as destination the flag is all that is left in the registers (R121). -/
theorem State.writeWithFlag_VF (s : State) (p : Byte × Byte) :
    ((s.writeWithFlag VF p).advance 2).readV VF = p.2 ∧ Frame [VF] [] s ((s.writeWithFlag VF p).advance 2) :=
  ⟨s.readV_writeWithFlag_flag VF p, (s.frame_writeWithFlag_advance VF p 2).mono (by simp) (by simp)⟩

theorem State.shiftSource_self (s : State) (x : RegIx) : s.shiftSource x x = s.readV x :=
  State.shiftSource_eq (fun _ => rfl) (fun _ => rfl)

theorem subNoBorrow_self_flag (b : Byte) : (subNoBorrow b b).2 = 1 := by simp [subNoBorrow, flagByte]

/-- Settles O32: each of the six writes the flag last, so it is the flag computed from the old VF. -/
theorem flagWinsWhenBothOperandsAreVF : Obligations.FlagWinsWhenBothOperandsAreVF := fun s => by
  have hflag := s.writeWithFlag_VF
  refine ⟨⟨_, rfl, ?add, (hflag _).2⟩, ⟨_, rfl, ?sub, (hflag _).2⟩, ⟨_, rfl, ?subn, (hflag _).2⟩, ⟨_, rfl, ?shr, (hflag _).2⟩,
    ⟨_, rfl, ?shl, (hflag _).2⟩, fun n hin => ⟨_, exec_drw_of_inside VF VF hin, ?hit, ?none, s.frame_drawn VF VF n⟩⟩
  case add =>
    rw [(hflag _).1, addWithCarry_flag]
    exact if_congr (by omega) rfl rfl
  case sub => rw [(hflag _).1, subNoBorrow_self_flag]
  case subn => rw [(hflag _).1, subNoBorrow_self_flag]
  case shr => rw [(hflag _).1, shiftRight_flag, s.shiftSource_self]
  case shl => rw [(hflag _).1, shiftLeft_flag, s.shiftSource_self]
  all_goals simp only [← s.plots_iff, and_comm (a := s.fb.pixel _ _ = true), ← s.drawn_flag_eq_one]
  case hit => exact id
  case none => exact (s.drawn_flag_zero_or_one VF VF n).resolve_right

end Sys2Proof.Machine

/-! PROOFS. The family 44_keys_timers.md: the key skips, one poll of the key wait and the timer registers (R150 to R155). -/

namespace Sys2Proof.Machine

/-! ### What a key skip tests, and what a new WAIT, DT or ST leaves alone -/

/-- Any byte names a key, by its low 4 bits (D15). -/
theorem State.keyDown_lowNibble (s : State) (b : Byte) :
    s.keyDown (lowNibble b) = s.env.ports.keyDown.getLsbD (b.toNat % 16) := by
  rw [State.keyDown, lowNibble_toNat]

theorem State.skipIf_pc_of_true (s : State) {c : Bool} (h : c = true) : (s.skipIf c).pc = s.pc + 4 := by
  rw [State.skipIf_pc, if_pos h]

theorem State.skipIf_pc_of_false (s : State) {c : Bool} (h : c = false) : (s.skipIf c).pc = s.pc + 2 := by
  rw [State.skipIf_pc, h]; rfl

theorem State.frame_setWait (s : State) (b : Bool) : Frame [] [.wait] s { s with wait := b } := by
  constructor <;> simp [State.readV]

theorem State.frame_setDt (s : State) (b : Byte) : Frame [] [.dt] s { s with dt := b } := by
  constructor <;> simp [State.readV]

theorem State.frame_setSt (s : State) (b : Byte) : Frame [] [.st] s { s with st := b } := by
  constructor <;> simp [State.readV]

/-- A key number fits in a register (R152). -/
theorem zeroExtend_nibble_toNat (k : Nibble) : (k.zeroExtend 8).toNat = k.toNat := by
  have := k.isLt
  simp; omega

/-! ### One poll of the key wait (R152) -/

theorem exec_ldVxK_of_key (x : RegIx) {s : State} {k : Nibble} (h : s.env.ports.keyEvent = some k) :
    exec (.ldVxK x) s = .next ((State.writeV { s with wait := false } x (k.zeroExtend 8)).advance 2) := by
  obtain ⟨k', hk, e⟩ | ⟨hno, -⟩ := execLdVxK_cases x s
  · obtain rfl := Option.some.inj (h.symm.trans hk)
    exact e
  · cases h.symm.trans hno

theorem exec_ldVxK_of_no_key (x : RegIx) {s : State} (h : s.env.ports.keyEvent = none) :
    exec (.ldVxK x) s = .next { s with wait := true } := by
  obtain ⟨k, hk, -⟩ | ⟨-, e⟩ := execLdVxK_cases x s
  · cases h.symm.trans hk
  · exact e

/-! ### The obligations -/

/-- Settles O45: both are the skip policy on the key's bit, SKNP on its negation. -/
theorem keySkipsFollowTheKey : Obligations.KeySkipsFollowTheKey := fun x s => by
  have hkey := s.keyDown_lowNibble (s.readV x)
  refine ⟨⟨Laws.RoundTrip.skp x rfl, _, rfl, s.frame_skipIf _, fun h => ?down, fun h => ?up⟩,
    ⟨Laws.RoundTrip.sknp x rfl, _, rfl, s.frame_skipIf _, fun h => ?up', fun h => ?down'⟩⟩
  case down => exact s.skipIf_pc_of_true (hkey.trans h)
  case up => exact s.skipIf_pc_of_false (hkey.trans h)
  case up' => exact s.skipIf_pc_of_true (congrArg (! ·) (hkey.trans h))
  case down' => exact s.skipIf_pc_of_false (congrArg (! ·) (hkey.trans h))

/-- Settles O46: the two outcomes of one poll. -/
theorem keyWaitPollsOnce : Obligations.KeyWaitPollsOnce := fun x s => by
  refine ⟨Laws.RoundTrip.ldVxK x rfl, fun k hk => ⟨_, exec_ldVxK_of_key x hk, ?stored, rfl, rfl, ?frame⟩,
    exec_ldVxK_of_no_key x⟩
  case stored => rw [State.readV_advance, State.readV_writeV_same, zeroExtend_nibble_toNat]
  case frame => exact (s.frame_setWait false).trans (State.frame_writeV_advance _ x _ 2)

/-- Settles O48: each is one write and an advance; sound_on is that ST is not 0. -/
theorem timerRegistersMove : Obligations.TimerRegistersMove := fun x s => by
  refine ⟨⟨Laws.RoundTrip.ldVxDt x rfl, _, rfl, s.readV_writeV_same x _, rfl, s.frame_writeV_advance x _ 2⟩,
    ⟨Laws.RoundTrip.ldDtVx x rfl, _, rfl, rfl, rfl, (s.frame_setDt _).trans (State.frame_advance _ 2)⟩,
    ⟨Laws.RoundTrip.ldStVx x rfl, _, rfl, rfl, ?sound, rfl, (s.frame_setSt _).trans (State.frame_advance _ 2)⟩⟩
  case sound => simp [State.soundOn, ← BitVec.toNat_inj]

end Sys2Proof.Machine

/-! PROOFS. What every instruction can do: complete within its frame, or raise its one fault (R20 to R33, R164 to R168). -/

namespace Sys2Proof.Machine

/-! ### The two outcomes of an instruction -/

/-- The registers an instruction may write. -/
def writtenRegs (i : Instr) : List RegIx :=
  ([0, 1, 2, 3, 4, 5, 6, 7, 8, 9, 10, 11, 12, 13, 14, 15] : List RegIx).filter (writesReg i)

theorem mem_writtenRegs {i : Instr} {r : RegIx} : r ∈ writtenRegs i ↔ writesReg i r = true := by
  rw [writtenRegs, List.mem_filter]
  exact and_iff_right (mem_all_registers r)

/-- From `s` to `t` the instruction has written nothing but its own registers and parts. -/
def Completes (i : Instr) (s t : State) : Prop := Frame (writtenRegs i) (partsOf i) s t

/-- From `s` to `t` the instruction has recorded its fault and done nothing else; an address is recorded for `MemRange`, and
it does not exist (R161, R165). -/
def Faults (i : Instr) (s t : State) : Prop :=
  ∃ kind addr, t = s.raise kind (some (encode i)) addr ∧ faultOf i = some kind ∧
    ((kind = .memRange ∧ ∃ a : Word, addr = some a ∧ 4096 ≤ a.toNat) ∨ (kind ≠ .memRange ∧ addr = none))

theorem Completes.of_frame {i : Instr} {s t : State} {regs : List RegIx} {parts : List Part} (h : Frame regs parts s t)
    (hr : ∀ r ∈ regs, writesReg i r = true) (hp : ∀ p ∈ parts, p ∈ partsOf i) : Completes i s t :=
  h.mono (fun r m => mem_writtenRegs.mpr (hr r m)) hp

/-- A checked access completes, or faults on an address that does not exist. -/
theorem checked_outcome {i : Instr} {s done : State} (n : Nat) (hf : faultOf i = some .memRange) (hd : Completes i s done) :
    Completes i s (s.checked i n done) ∨ Faults i s (s.checked i n done) := by
  obtain ⟨-, e⟩ | ⟨-, e⟩ := s.checked_cases i n done <;> rw [e]
  · exact .inl hd
  · refine .inr ⟨_, _, rfl, hf, .inl ⟨rfl, _, rfl, ?_⟩⟩
    have := s.i_lt
    rw [BitVec.toNat_ofNat]
    omega

/-- A loaded block is in registers that LD_block may write. -/
theorem ldBlock_completes (x : RegIx) (s : State) :
    Completes (.ldBlock x) s (State.advance { s with v := loadFrom s.v 0 (s.mem.readBlock s.i.toNat (x.toNat + 1)) } 2) := by
  refine .of_frame ((s.frame_setRegs (regs := writtenRegs (.ldBlock x)) _ fun r hr => ?_).trans (State.frame_advance _ 2))
    (by simp [mem_writtenRegs]) (by simp)
  have hx : ¬ r.toNat < x.toNat + 1 := fun h => hr (mem_writtenRegs.mpr (decide_eq_true (Nat.le_of_lt_succ h)))
  rw [State.readV_loaded_block, if_neg hx]

/-- Everything an instruction can do: complete, or fault. -/
theorem exec_outcome {i : Instr} {s t : State} (h : exec i s = .next t) : Completes i s t ∨ Faults i s t := by
  cases i
  case ret =>
    obtain ⟨hpos, e⟩ | ⟨-, e⟩ := execRet_cases s <;> cases e.symm.trans h
    · exact .inl (.of_frame (s.frame_stack _ _ _) (by simp) (by simp [partsOf]))
    · exact .inr ⟨_, _, rfl, rfl, .inr ⟨by decide, rfl⟩⟩
  case call nnn =>
    obtain ⟨hroom, e⟩ | ⟨-, e⟩ := execCall_cases nnn s <;> cases e.symm.trans h
    · exact .inl (.of_frame (s.frame_stack _ _ _) (by simp) (by simp [partsOf]))
    · exact .inr ⟨_, _, rfl, rfl, .inr ⟨by decide, rfl⟩⟩
  case ldVxK x =>
    obtain ⟨k, -, e⟩ | ⟨-, e⟩ := execLdVxK_cases x s <;> cases e.symm.trans h
    · exact .inl (.of_frame ((s.frame_setWait false).trans (State.frame_writeV_advance _ x _ 2)) (by simp [writesReg])
        (by simp [partsOf]))
    · exact .inl (.of_frame (s.frame_setWait true) (by simp) (by simp [partsOf]))
  case drw x y n =>
    cases h
    exact checked_outcome _ rfl (.of_frame (s.frame_drawn x y n) (by simp [writesReg]) (by simp [partsOf]))
  case ldB | stBlock =>
    cases h
    exact checked_outcome _ rfl (.of_frame ((s.frame_setMem _).trans (State.frame_advance _ 2)) (by simp) (by simp [partsOf]))
  case ldBlock x =>
    cases h
    exact checked_outcome _ rfl (ldBlock_completes x s)
  all_goals cases h; left
  case cls => exact .of_frame ((s.frame_setFb _).trans (State.frame_advance _ 2)) (by simp) (by simp [partsOf])
  case ldImm | addImm | ldReg | or | and | xor | rnd | ldVxDt =>
    exact .of_frame (s.frame_writeV_advance _ _ 2) (by simp [writesReg]) (by simp)
  case addReg | sub | shr | subn | shl =>
    exact .of_frame (s.frame_writeWithFlag_advance _ _ 2) (by simp [writesReg]) (by simp)
  case seImm | sneImm | seReg | sneReg | skp | sknp => exact .of_frame (s.frame_skipIf _) (by simp) (by simp)
  case jp | jpV0 => exact .of_frame (s.frame_setPc _) (by simp) (by simp)
  case ldI | addI | ldF => exact .of_frame (s.frame_setI_advance _ 2) (by simp) (by simp [partsOf])
  case ldDtVx => exact .of_frame ((s.frame_setDt _).trans (State.frame_advance _ 2)) (by simp) (by simp [partsOf])
  case ldStVx => exact .of_frame ((s.frame_setSt _).trans (State.frame_advance _ 2)) (by simp) (by simp [partsOf])
  case nop => exact .of_frame (s.frame_advance 2) (by simp) (by simp)

/-- No instruction writes the fault record but by its own fault. -/
theorem Completes.fault {i : Instr} {s t : State} (h : Completes i s t) : t.fault = s.fault :=
  Frame.fault h (by cases i <;> simp [partsOf])

theorem Completes.running_iff {i : Instr} {s t : State} (h : Completes i s t) : t.running ↔ s.running := by
  rw [State.running, State.running, h.fault]

theorem faultOf_ne_none {i : Instr} {kind : FaultKind} (h : faultOf i = some kind) : kind ≠ .none := by
  cases i <;> cases h <;> decide

theorem faultOf_ne_fbRange (i : Instr) : faultOf i ≠ some .fbRange := by
  cases i <;> simp [faultOf]

theorem Faults.not_running {i : Instr} {s t : State} (h : Faults i s t) : ¬ t.running := by
  obtain ⟨kind, addr, rfl, hf, -⟩ := h
  exact faultOf_ne_none hf

/-! ### The obligations -/

/-- Settles O49: only a fault halts a running block, and it is recorded with the instruction's kind, address and word. -/
theorem faultsArePrecise : Obligations.FaultsArePrecise := fun i s t hs h ht => by
  obtain hc | ⟨kind, addr, rfl, hf, haddr⟩ := exec_outcome h
  · exact absurd (hc.running_iff.mpr hs) ht
  · refine ⟨rfl, hf, rfl, rfl, ?_⟩
    obtain ⟨hk, a, ha, -⟩ | ⟨hk, ha⟩ := haddr
    · simp [hk, ha]
    · simp [hk, ha]

/-- Settles O50: what leaves the block running is no fault, so it is the instruction's own frame. -/
theorem onlyTheNamedInstructionsWriteEachPart : Obligations.OnlyTheNamedInstructionsWriteEachPart := fun _ _ _ _ h ht =>
  ⟨_, (exec_outcome h).resolve_right fun hf => hf.not_running ht⟩

/-- Settles O51: a register outside the frame is kept, and a fault keeps every register. -/
theorem onlyDestinationRegistersChange : Obligations.OnlyDestinationRegistersChange := fun i s t r h hr => by
  obtain hc | ⟨_, _, rfl, -⟩ := exec_outcome h
  · exact Frame.regs hc r fun hm => by simp [mem_writtenRegs, hr] at hm
  · rfl

/-- The range check reads `I` only, whatever the ports answer. -/
theorem State.checked_withPorts (s : State) (i : Instr) (n : Nat) (done : State) (p : Ports) :
    (s.withPorts p).checked i n (done.withPorts p) = (s.checked i n done).withPorts p := by
  obtain ⟨hin, e⟩ | ⟨hout, e⟩ := s.checked_cases i n done <;> rw [e]
  · exact State.checked_of_inside (s := s.withPorts p) hin i _
  · rw [State.checked_of_outside (s := s.withPorts p) hout.1 hout.2, ofNat_max_4096]; rfl

/-- Settles O52: an instruction that samples no port computes the same from states that differ in the port answers. -/
theorem portsReachOnlyTheInputInstructions : Obligations.PortsReachOnlyTheInputInstructions := fun i s t p hi h => by
  cases i
  case skp | sknp | ldVxK | rnd => cases hi
  case ret =>
    obtain ⟨hpos, e⟩ | ⟨hempty, e⟩ := execRet_cases s <;> cases e.symm.trans h
    · exact exec_ret_of_pos (s := s.withPorts p) hpos
    · exact exec_ret_of_empty (s := s.withPorts p) hempty
  case call nnn =>
    obtain ⟨hroom, e⟩ | ⟨hfull, e⟩ := execCall_cases nnn s <;> cases e.symm.trans h
    · exact exec_call_of_lt nnn (s := s.withPorts p) hroom
    · exact exec_call_of_full nnn (s := s.withPorts p) hfull
  case drw | ldB | stBlock | ldBlock =>
    cases h
    rw [← s.checked_withPorts]; rfl
  all_goals cases h; rfl

end Sys2Proof.Machine

/-! PROOFS. The events of the block: what one step of each kind does, and runs of them (R13, R38, R157, R160 to R168, R203, R206). -/

namespace Sys2Proof.Machine

/-! ### Taking an event -/

/-- From `s` to `u` nothing but the event list and the count of free answers has changed. -/
def TakesEvent (s u : State) : Prop := u = { s with env := { s.env with events := u.env.events, draws := u.env.draws } }

theorem nextEvent_takes {s u : State} {e : Event} (h : nextEvent s = (e, u)) : TakesEvent s u := by
  obtain ⟨e', rest, -, h'⟩ | ⟨-, h'⟩ := nextEvent_cases s <;> cases h'.symm.trans h <;> rfl

/-- An event that the list does not give is no tick and no reset, and one it gives leaves the rest of the list. -/
theorem nextEvent_events {s u : State} {e : Event} (h : nextEvent s = (e, u)) :
    s.env.events = e :: u.env.events ∨ (∃ p, e = .insn p) ∧ u.env.events = s.env.events := by
  obtain ⟨e', rest, hs, h'⟩ | ⟨-, h'⟩ := nextEvent_cases s <;> cases h'.symm.trans h
  · exact .inl hs
  · exact .inr ⟨⟨_, rfl⟩, rfl⟩

theorem nextEvent_events_subset {s u : State} {e : Event} (h : nextEvent s = (e, u)) : u.env.events ⊆ s.env.events := by
  obtain hs | ⟨-, hs⟩ := nextEvent_events h
  · rw [hs]; exact List.subset_cons_self _ _
  · rw [hs]; exact List.Subset.refl _

/-! ### Instruction steps -/

theorem step_of_nextEvent_insn {s u : State} {p : Ports} (h : nextEvent s = (.insn p, u)) : step s = insnStep p u := by
  simp only [step, h]

theorem insnStep_of_halted {s : State} (h : ¬ s.running) (p : Ports) : insnStep p s = .next s := by
  rw [insnStep, halted_eq_true.mpr h]; rfl

theorem insnStep_of_fetch {s : State} {w : Word} (hs : s.running) (hw : fetch s = .ok w) (p : Ports) :
    insnStep p s = exec (decodeWord w) (s.withPorts p) := by
  rw [insnStep, halted_eq_false.mpr hs, hw]; rfl

theorem insnStep_of_fetch_error {s : State} (hs : s.running) (hpc : 0x0FFF ≤ s.pc.toNat) (p : Ports) :
    insnStep p s = .next ((s.withPorts p).raise .memRange none (some (if s.pc.toNat ≤ 4096 then 4096 else s.pc))) := by
  rw [insnStep, halted_eq_false.mpr hs, fetch_eq_error.mpr ⟨hpc, rfl⟩, ofNat_max_4096]; rfl

/-- A step whose event is an instruction step, with the port answers that the list gives. -/
theorem step_insn_of_fetch {s : State} {w : Word} {p : Ports} {rest : List Event} (hs : s.running) (hw : fetch s = .ok w)
    (he : s.env.events = .insn p :: rest) :
    step s = exec (decodeWord w) { s with env := { s.env with events := rest, ports := p } } := by
  rw [step_of_event he]
  exact insnStep_of_fetch (s := { s with env := { s.env with events := rest } }) hs hw p

/-- A step with no event given, with free port answers. -/
theorem step_free_of_fetch {s : State} {w : Word} (hs : s.running) (hw : fetch s = .ok w) (he : s.env.events = []) :
    step s = exec (decodeWord w)
      { s with env := { s.env with draws := s.env.draws + 1, ports := Config.freePorts s.env.draws } } := by
  rw [step_of_no_event he]
  exact insnStep_of_fetch (s := { s with env := { s.env with draws := s.env.draws + 1 } }) hs hw _

/-! ### The obligations about one step -/

/-- Settles O9: the fetch reads the two bytes and the step executes what they decode to. -/
theorem stepRunsTheDecodedInstruction : Obligations.StepRunsTheDecodedInstruction := fun s i hs hpc hi => by
  obtain rfl : decodeWord (wordOfBytes (s.mem.read s.pc.toNat) (s.mem.read (s.pc.toNat + 1))) = i :=
    (Prod.mk.inj (Except.ok.inj hi)).1
  have hfetch := fetch_eq_ok.mpr ⟨hpc, rfl⟩
  exact ⟨fun _ _ => step_insn_of_fetch hs hfetch, step_free_of_fetch hs hfetch⟩

/-- Settles O10: the fetch fails from 0x0FFF on, with the higher of PC and 4096 as its address. -/
theorem fetchOutsideMemoryFaults : Obligations.FetchOutsideMemoryFaults := fun s u p h hs => by
  have hu := nextEvent_takes h
  have hpc : u.pc = s.pc := by rw [hu]
  have hrun : u.running := by rw [hu]; exact hs
  have hfault {a : Word} (hge : 0x0FFF ≤ s.pc.toNat) (ha : (if s.pc.toNat ≤ 4096 then 4096 else s.pc) = a) :
      step s = .next { u.withPorts p with fault := { kind := .memRange, pc := s.pc, opcode := none, addr := some a } } := by
    rw [step_of_nextEvent_insn h, insnStep_of_fetch_error hrun (hpc ▸ hge), ← ha, ← hpc]; rfl
  refine ⟨fun heq => hfault (by rw [heq]; decide) (by rw [heq]; rfl), fun hgt => hfault (Nat.le_of_lt hgt) ?above,
    by rw [hu]; rfl⟩
  case above =>
    split
    case isTrue hle => exact BitVec.eq_of_toNat_eq (Nat.le_antisymm hgt hle)
    case isFalse => rfl

/-- Settles O11: every event but an oversized reset answers a next state. -/
theorem stepRefusesOnlyAnOversizedImage : Obligations.StepRefusesOnlyAnOversizedImage := fun s => by
  obtain ⟨p, u, -, h⟩ | ⟨u, -, h⟩ | ⟨rom, u, he, h⟩ := step_cases s
  · exact .inl (h ▸ insnStep_next p u)
  · exact .inl ⟨_, h⟩
  · by_cases hrom : rom.length ≤ 3584
    · exact .inl ⟨_, h.trans (resetAndLoad_of_le u hrom)⟩
    · have hlarge := Nat.lt_of_not_le hrom
      obtain hs | ⟨⟨p, hp⟩, -⟩ := nextEvent_events he
      · exact .inr ⟨rom, _, hs, hlarge, h.trans (resetAndLoad_of_lt u hlarge)⟩
      · cases hp

/-! ### The outcomes of a step -/

/-- What a step from `s` that answers `t` can have done, once it has taken its event and left `u`. -/
inductive StepOutcome (s u t : State) : Prop where
  /-- A halted block ignores an instruction step and a tick (R166). -/
  | idle (hu : ¬ u.running) (ht : t = u)
  /-- The fetched instruction was executed (R160). -/
  | executed (p : Ports) (w : Word) (hu : u.running) (hw : fetch u = .ok w) (ht : exec (decodeWord w) (u.withPorts p) = .next t)
  /-- Two bytes at `PC` do not exist (R162). -/
  | fetchFault (p : Ports) (hu : u.running) (hpc : 0x0FFF ≤ u.pc.toNat)
      (ht : t = (u.withPorts p).raise .memRange none (some (if u.pc.toNat ≤ 4096 then 4096 else u.pc)))
  /-- A tick (R157). -/
  | ticked (hu : u.running)
      (ht : t = { u with env := { u.env with frames := u.fb :: u.env.frames }, dt := countDown u.dt, st := countDown u.st })
  /-- Reset and load (R190, R193). -/
  | reset (rom : List Byte) (he : .reset rom ∈ s.env.events) (hrom : rom.length ≤ 3584)
      (ht : t = { State.reset with mem := State.reset.mem.writeBlock 0x200 rom, shiftSrc := u.shiftSrc, env := u.env })

theorem insnStep_outcome {p : Ports} {s u t : State} (h : insnStep p u = .next t) : StepOutcome s u t := by
  by_cases hu : u.running
  · cases hf : fetch u with
    | ok w => exact .executed p w hu hf ((insnStep_of_fetch hu hf p).symm.trans h)
    | error a =>
      have hpc := (fetch_eq_error.mp hf).1
      exact .fetchFault p hu hpc (Host.Outcome.next.inj (h.symm.trans (insnStep_of_fetch_error hu hpc p)))
  · exact .idle hu (Host.Outcome.next.inj (h.symm.trans (insnStep_of_halted hu p)))

theorem timerTick_outcome (s u : State) : StepOutcome s u (timerTick u) := by
  by_cases hu : u.running
  · exact .ticked hu (timerTick_of_running hu)
  · exact .idle hu (timerTick_of_halted hu)

theorem reset_outcome {rom : List Byte} {s u t : State} (he : .reset rom ∈ s.env.events) (h : resetAndLoad rom u = .next t) :
    StepOutcome s u t := by
  by_cases hrom : rom.length ≤ 3584
  · exact .reset rom he hrom (Host.Outcome.next.inj (h.symm.trans (resetAndLoad_of_le u hrom)))
  · cases h.symm.trans (resetAndLoad_of_lt u (Nat.lt_of_not_le hrom))

/-- Everything a step can do. -/
theorem step_outcome {s t : State} (h : step s = .next t) :
    ∃ u, TakesEvent s u ∧ u.env.events ⊆ s.env.events ∧ StepOutcome s u t := by
  obtain ⟨p, u, he, e⟩ | ⟨u, he, e⟩ | ⟨rom, u, he, e⟩ := step_cases s <;>
    refine ⟨u, nextEvent_takes he, nextEvent_events_subset he, ?_⟩
  · exact insnStep_outcome (e.symm.trans h)
  · exact Host.Outcome.next.inj (e.symm.trans h) ▸ timerTick_outcome s u
  · refine reset_outcome ?_ (e.symm.trans h)
    obtain hs | ⟨⟨p, hp⟩, -⟩ := nextEvent_events he
    · rw [hs]; exact List.mem_cons_self
    · cases hp

/-- No step changes the strap, or the events still to come once it has taken its own. -/
theorem StepOutcome.keeps_environment {s u t : State} (h : StepOutcome s u t) :
    t.shiftSrc = u.shiftSrc ∧ t.env.events = u.env.events := by
  cases h
  case executed p w _ _ ht =>
    obtain ⟨hsrc, henv⟩ := exec_keeps_environment ht
    exact ⟨hsrc, by rw [henv]; rfl⟩
  all_goals subst t; exact ⟨rfl, rfl⟩

/-! ### The obligations about every step -/

/-- Settles O14: no outcome of a step changes the strap, reset among them. -/
theorem noStepChangesTheShiftSource : Obligations.NoStepChangesTheShiftSource := fun s t h => by
  obtain ⟨u, hu, -, ho⟩ := step_outcome h
  rw [ho.keeps_environment.1, hu]

/-- Settles O15: an instruction records its own fault or none, a fetch `MemRange`, and the other events none. -/
theorem noStepRecordsAFramebufferFault : Obligations.NoStepRecordsAFramebufferFault := by
  refine ⟨fun s t h hkind => ?_, fun x0 c y0 r => ⟨rfl, Nat.mod_lt _ (by decide), rfl, Nat.mod_lt _ (by decide)⟩, rfl⟩
  obtain ⟨u, hu, -, ho⟩ := step_outcome h
  have hfault : u.fault = s.fault := by rw [hu]
  rw [← hfault]
  cases ho
  case executed p w _ _ ht =>
    obtain hc | ⟨kind, addr, rfl, hf, -⟩ := exec_outcome ht
    · rw [hc.fault] at hkind; exact hkind
    · cases (show kind = .fbRange from hkind)
      exact absurd hf (faultOf_ne_fbRange _)
  case fetchFault => subst t; cases hkind
  case reset => subst t; cases hkind
  case idle => subst t; exact hkind
  case ticked => subst t; exact hkind

/-! ### Ticks -/

/-- A running block after a tick, with `rest` the events still to come (R157). -/
def State.afterTick (s : State) (rest : List Event) : State :=
  { s with env := { s.env with events := rest, frames := s.fb :: s.env.frames }, dt := countDown s.dt, st := countDown s.st }

theorem step_tick_of_running {s : State} {rest : List Event} (hs : s.running) (he : s.env.events = .tick :: rest) :
    step s = .next (s.afterTick rest) := by
  rw [step_of_event he]
  exact congrArg Host.Outcome.next (timerTick_of_running (s := { s with env := { s.env with events := rest } }) hs)

theorem step_tick_of_halted {s : State} {rest : List Event} (hs : ¬ s.running) (he : s.env.events = .tick :: rest) :
    step s = .next { s with env := { s.env with events := rest } } := by
  rw [step_of_event he]
  exact congrArg Host.Outcome.next (timerTick_of_halted (s := { s with env := { s.env with events := rest } }) hs)

/-- Settles O16: a tick of a running block, and one of a halted block. -/
theorem timerTickFlushesThenCountsDown : Obligations.TimerTickFlushesThenCountsDown := fun s rest he =>
  ⟨fun hs => ⟨s.afterTick rest, step_tick_of_running hs he, countDown_toNat _, countDown_toNat _, rfl, rfl⟩,
   fun hs => step_tick_of_halted hs he⟩

/-- Settles O18: the instruction step leaves the tick as the next event. -/
theorem bothTicksRunTheInstructionFirst : Obligations.BothTicksRunTheInstructionFirst := fun s p rest he => by
  have hfirst : step s = insnStep p { s with env := { s.env with events := .tick :: rest } } := step_of_event he
  obtain ⟨t, ht⟩ := insnStep_next p { s with env := { s.env with events := .tick :: rest } }
  have hnext : t.env.events = .tick :: rest := (insnStep_outcome (s := s) ht).keeps_environment.2
  refine ⟨t, hfirst.trans ht, ht, ?_⟩
  rw [core_run_succ 1 (hfirst.trans ht), core_run_succ 0 (step_of_event hnext)]
  rfl

/-- Settles O17: each tick takes one off each timer that has one, and flushes the framebuffer, which stays. -/
theorem timersReachZeroAndStayThere : Obligations.TimersReachZeroAndStayThere := fun n => by
  induction n with
  | zero =>
    intro s rest _ (he : s.env.events = rest)
    exact ⟨s, rfl, rfl, rfl, he ▸ rfl, rfl⟩
  | succ n ih =>
    intro s rest hs (he : s.env.events = .tick :: (List.replicate n .tick ++ rest))
    obtain ⟨t, hrun, hdt, hst, henv, ht⟩ := ih (s.afterTick (List.replicate n .tick ++ rest)) rest hs rfl
    refine ⟨t, (core_run_succ n (step_tick_of_running hs he)).trans hrun, ?dt, ?st, ?env, ht⟩
    case dt => rw [hdt, State.afterTick, countDown_toNat]; omega
    case st => rw [hst, State.afterTick, countDown_toNat]; omega
    case env => rw [henv, List.replicate_succ', List.append_assoc]; rfl

/-! ### The key wait, polled until a key comes (R152) -/

/-- A block at a key wait after a poll that found no key, with `rest` the events still to come. -/
def State.afterPoll (s : State) (p : Ports) (rest : List Event) : State :=
  { s with env := { s.env with events := rest, ports := p }, wait := true }

/-- `n` polls that find no key, a tick after each, and then one that finds a key. -/
def pollsThenKey (n : Nat) (p q : Ports) (rest : List Event) : List Event :=
  (List.replicate n [Event.insn p, Event.tick]).flatten ++ Event.insn q :: rest

section Poll
variable {s : State} {x : RegIx} {p : Ports} {rest : List Event}

theorem step_poll (hs : s.running) (hw : fetch s = .ok (encode (.ldVxK x))) (he : s.env.events = .insn p :: rest) :
    step s = exec (.ldVxK x) { s with env := { s.env with events := rest, ports := p } } := by
  rw [step_insn_of_fetch hs hw he, Laws.RoundTrip.ldVxK x rfl]

theorem step_poll_no_key (hs : s.running) (hw : fetch s = .ok (encode (.ldVxK x))) (he : s.env.events = .insn p :: rest)
    (hp : p.keyEvent = none) : step s = .next (s.afterPoll p rest) := by
  rw [step_poll hs hw he]
  exact exec_ldVxK_of_no_key x (s := { s with env := { s.env with events := rest, ports := p } }) hp

end Poll

/-- Settles O47: a poll that finds no key and the tick after it leave the block at the same key wait; the last poll ends it. -/
theorem keyWaitEndsWithTheFirstKey : Obligations.KeyWaitEndsWithTheFirstKey := fun n => by
  induction n with
  | zero =>
    intro x k p q rest s hs hw _ hq (he : s.env.events = .insn q :: rest)
    have hstep := (step_poll hs hw he).trans (exec_ldVxK_of_key x hq)
    refine ⟨_, core_run_succ 0 hstep, ?key, rfl, rfl, rfl, rfl, rfl, rfl, fun r hr => ?other, rfl⟩
    case key => rw [State.readV_advance, State.readV_writeV_same, zeroExtend_nibble_toNat]
    case other => exact State.readV_writeV_ne _ _ hr.symm
  | succ n ih =>
    intro x k p q rest s hs hw hp hq he
    have hpoll : step s = .next (s.afterPoll p (.tick :: pollsThenKey n p q rest)) := step_poll_no_key hs hw he hp
    have htick := step_tick_of_running (s := s.afterPoll p (.tick :: pollsThenKey n p q rest)) hs rfl
    obtain ⟨t, hrun, hkey, hwait, hpc, hdt, hst, hframes, hevents, hother, ht⟩ := ih x k p q rest
      ((s.afterPoll p (.tick :: pollsThenKey n p q rest)).afterTick (pollsThenKey n p q rest)) hs hw hp hq rfl
    refine ⟨t, ((core_run_succ _ hpoll).trans (core_run_succ _ htick)).trans hrun, hkey, hwait, hpc, ?dt, ?st, ?frames, hevents,
      hother, ht⟩
    case dt => rw [hdt, State.afterTick, countDown_toNat, Nat.sub_sub, Nat.add_comm 1 n]; rfl
    case st => rw [hst, State.afterTick, countDown_toNat, Nat.sub_sub, Nat.add_comm 1 n]; rfl
    case frames => rw [hframes, List.replicate_succ', List.append_assoc]; rfl

end Sys2Proof.Machine

/-! PROOFS. Runs with no reset: the halted block and the finished program (R166, R206). -/

namespace Sys2Proof.Machine

/-! ### Runs with no reset -/

/-- What a state keeps over one step, it keeps over any number of steps. -/
theorem core_run_of_step {P : State → Prop} (hstep : ∀ s, P s → ∃ t, step s = .next t ∧ P t) (n : Nat) {s : State} (hs : P s) :
    ∃ t, Sys2Proof.core.run n s = .next t ∧ P t := by
  induction n generalizing s with
  | zero => exact ⟨s, rfl, hs⟩
  | succ n ih =>
    obtain ⟨t, hst, ht⟩ := hstep s hs
    rw [core_run_succ n hst]
    exact ih ht

/-- No reset is among the events to come. -/
def State.noReset (s : State) : Prop := ∀ rom, Event.reset rom ∉ s.env.events

/-- With no reset to come a step answers a next state, with none to come either. -/
theorem step_of_noReset {s : State} (h : s.noReset) :
    ∃ t u, step s = .next t ∧ t.noReset ∧ TakesEvent s u ∧ StepOutcome s u t := by
  obtain ⟨t, ht⟩ | ⟨rom, rest, he, -⟩ := stepRefusesOnlyAnOversizedImage s
  · obtain ⟨u, hu, hsub, ho⟩ := step_outcome ht
    exact ⟨t, u, ht, fun rom hm => h rom (hsub (ho.keeps_environment.2 ▸ hm)), hu, ho⟩
  · exact absurd (he ▸ List.mem_cons_self) (h rom)

/-! ### The halted block -/

/-- `t` is the halted block `s`, with no reset to come, some events later: nothing is flushed and no port is sampled (R166). -/
structure HaltedSince (s t : State) : Prop where
  noReset : t.noReset
  same    : t = { s with env := t.env }
  frames  : t.env.frames = s.env.frames
  ports   : t.env.ports = s.env.ports

theorem HaltedSince.step {s t : State} (hs : ¬ s.running) (h : HaltedSince s t) :
    ∃ t', Machine.step t = .next t' ∧ HaltedSince s t' := by
  obtain ⟨t', u, hstep, hno, hu, ho⟩ := step_of_noReset h.noReset
  have hhalted : ¬ u.running := by rw [hu, h.same]; exact hs
  refine ⟨t', hstep, ?_⟩
  cases ho
  case idle ht =>
    subst t'
    exact ⟨hno, by rw [hu, h.same], by rw [hu, ← h.frames], by rw [hu, ← h.ports]⟩
  case executed hu _ _ => exact absurd hu hhalted
  case fetchFault hu _ _ => exact absurd hu hhalted
  case ticked hu _ => exact absurd hu hhalted
  case reset rom he _ _ => exact absurd he (h.noReset rom)

/-- Settles O12: a halted block is idle at each of the steps. -/
theorem haltedBlockChangesNothingUntilReset : Obligations.HaltedBlockChangesNothingUntilReset := fun n s hs hno => by
  obtain ⟨t, hrun, ht⟩ := core_run_of_step (fun _ => HaltedSince.step hs) n (s := s) ⟨hno, rfl, rfl, rfl⟩
  exact ⟨t, hrun, ht.same, ht.frames, ht.ports⟩

/-! ### The finished program -/

/-- Whether a program is finished depends on the fault record, `PC` and memory only. -/
theorem State.finished_congr {s t : State} (hf : t.fault = s.fault) (hpc : t.pc = s.pc) (hm : t.mem = s.mem) (hs : s.finished) :
    t.finished := by
  obtain ⟨hrun, nnn, hfetch, htarget⟩ := hs
  exact ⟨(congrArg FaultRecord.kind hf).trans hrun, nnn, (fetch_congr hpc hm).trans hfetch, hpc.trans htarget⟩

/-- A jump to itself, executed, changes nothing. -/
theorem exec_of_finished {s t : State} {w : Word} (hs : s.finished) (hw : fetch s = .ok w) (ht : exec (decodeWord w) s = .next t) :
    t = s := by
  obtain ⟨-, nnn, hfetch, hpc⟩ := hs
  obtain rfl : w = encode (.jp nnn) := Except.ok.inj (hw.symm.trans hfetch)
  rw [Laws.RoundTrip.jp nnn rfl] at ht
  cases ht
  rw [← hpc]; rfl

theorem countDown_le (b : Byte) : (countDown b).toNat ≤ b.toNat := countDown_toNat b ▸ Nat.sub_le _ 1

/-- `t` is the finished program `s`, with no reset to come, some events later (R206). -/
structure FinishedSince (s t : State) : Prop where
  noReset  : t.noReset
  finished : t.finished
  same     : t = { s with dt := t.dt, st := t.st, env := t.env }
  dt       : t.dt.toNat ≤ s.dt.toNat
  st       : t.st.toNat ≤ s.st.toNat

theorem FinishedSince.trans {s t u : State} (h : FinishedSince s t) (h' : FinishedSince t u) : FinishedSince s u where
  noReset := h'.noReset
  finished := h'.finished
  same := by rw [h'.same, h.same]
  dt := h'.dt.trans h.dt
  st := h'.st.trans h.st

theorem finished_step {s : State} (hs : s.finished) (hno : s.noReset) : ∃ t, step s = .next t ∧ FinishedSince s t := by
  obtain ⟨t, u, hstep, hno', hu, ho⟩ := step_of_noReset hno
  have hfin : u.finished := State.finished_congr (by rw [hu]) (by rw [hu]) (by rw [hu]) hs
  refine ⟨t, hstep, ?_⟩
  cases ho
  case executed p w _ hw ht =>
    obtain rfl := exec_of_finished (s := u.withPorts p) hfin hw ht
    exact ⟨hno', hfin, by rw [hu]; rfl, by rw [hu]; exact le_rfl, by rw [hu]; exact le_rfl⟩
  case ticked _ ht =>
    subst t
    exact ⟨hno', hfin, by rw [hu], by rw [hu]; exact countDown_le _, by rw [hu]; exact countDown_le _⟩
  case idle hhalted _ => exact absurd hfin.1 hhalted
  case fetchFault _ hpc _ =>
    obtain ⟨-, nnn, hfetch, -⟩ := hfin
    have := (fetch_eq_ok.mp hfetch).1
    omega
  case reset rom he _ _ => exact absurd he (hno rom)

theorem FinishedSince.step {s t : State} (h : FinishedSince s t) : ∃ t', Machine.step t = .next t' ∧ FinishedSince s t' := by
  obtain ⟨t', hstep, ht'⟩ := finished_step h.finished h.noReset
  exact ⟨t', hstep, h.trans ht'⟩

/-- Settles O53: a jump to itself leaves the block as it is, and a tick leaves all but the timers. -/
theorem finishedProgramStaysFinished : Obligations.FinishedProgramStaysFinished := fun n s hs hno => by
  obtain ⟨t, hrun, ht⟩ := core_run_of_step (P := FinishedSince s) (fun _ => FinishedSince.step) n ⟨hno, hs, rfl, le_rfl, le_rfl⟩
  exact ⟨t, hrun, ht.finished, ht.same, ht.dt, ht.st⟩

end Sys2Proof.Machine

/-! PROOFS. The invariant of every step (10_state.md R24, R29; 40_flow.md R93; 44_keys_timers.md R152; 60_exceptions.md R161). -/

namespace Sys2Proof.Machine

/-! ### The invariant at reset, and over what an event does beside an instruction -/

/-- A reset block over any canonical memory satisfies the invariant. -/
theorem inv_reset {m : Memory} (hm : m.wf = true) (src : ShiftSrc) (e : Env) :
    Inv { State.reset with mem := m, shiftSrc := src, env := e } where
  memory := hm
  pc := (by decide : State.reset.pc.toNat ≤ 0x10FE)
  returns _ _ hlive := absurd hlive (Nat.not_lt_zero _)
  waiting h := Bool.noConfusion h
  fault := ⟨rfl, rfl⟩

/-- The invariant says nothing of the timers and the model's own fields. -/
theorem Inv.setTimersEnv {s : State} (hs : Inv s) (dt st : Byte) (e : Env) : Inv { s with dt := dt, st := st, env := e } where
  memory := hs.memory
  pc := hs.pc
  returns := hs.returns
  waiting := hs.waiting
  fault := hs.fault

theorem Inv.takesEvent {s u : State} (hs : Inv s) (hu : TakesEvent s u) : Inv u := hu ▸ hs.setTimersEnv s.dt s.st _

/-- A fetch that fails is of no key wait, so the fault is recorded while WAIT is clear. -/
theorem Inv.fetchFault {s : State} (hs : Inv s) (hpc : 0x0FFF ≤ s.pc.toNat) :
    Inv (s.raise .memRange none (some (if s.pc.toNat ≤ 4096 then 4096 else s.pc))) where
  memory := hs.memory
  pc := hs.pc
  returns := hs.returns
  waiting h := by
    obtain ⟨-, x, hx⟩ := hs.waiting h
    have := (fetch_eq_ok.mp hx).1
    omega
  fault := by
    refine ⟨rfl, _, rfl, ?_⟩
    split
    case isTrue => exact le_rfl
    case isFalse h => exact Nat.le_of_not_le h

/-! ### What an instruction does to memory, PC, the stack, WAIT and the fault record -/

/-- Memory after an instruction is memory before it, or a block written inside memory. -/
theorem exec_mem {i : Instr} {s t : State} (h : exec i s = .next t) :
    t.mem = s.mem ∨ ∃ bs, s.i.toNat + bs.length ≤ 4096 ∧ t.mem = s.mem.writeBlock s.i.toNat bs := by
  cases i
  case ret => obtain ⟨_, e⟩ | ⟨_, e⟩ := execRet_cases s <;> cases e.symm.trans h <;> exact .inl rfl
  case call nnn => obtain ⟨_, e⟩ | ⟨_, e⟩ := execCall_cases nnn s <;> cases e.symm.trans h <;> exact .inl rfl
  case ldVxK x => obtain ⟨_, _, e⟩ | ⟨_, e⟩ := execLdVxK_cases x s <;> cases e.symm.trans h <;> exact .inl rfl
  case drw | ldBlock => cases h; exact .inl (State.checked_keeps State.mem _ _ _ _ rfl fun _ _ _ => rfl)
  case ldB x =>
    cases h
    obtain ⟨hin, e⟩ | ⟨-, e⟩ := s.checked_cases (.ldB x) 3 _ <;> rw [e]
    · exact .inr ⟨_, by rw [length_bcdDigits]; omega, rfl⟩
    · exact .inl rfl
  case stBlock x =>
    cases h
    obtain ⟨hin, e⟩ | ⟨-, e⟩ := s.checked_cases (.stBlock x) (x.toNat + 1) _ <;> rw [e]
    · exact .inr ⟨_, by rw [s.length_regsUpTo]; omega, rfl⟩
    · exact .inl rfl
  all_goals cases h; exact .inl rfl

theorem exec_keeps_wf {i : Instr} {s t : State} (hs : s.mem.wf = true) (h : exec i s = .next t) : t.mem.wf = true := by
  obtain e | ⟨bs, hlen, e⟩ := exec_mem h
  · rw [e]; exact hs
  · rw [e]; exact Memory.wf_writeBlock bs _ hs hlen

theorem zextAddr_add_zero (nnn : Addr12) : zextAddr nnn + zextByte 0 = zextAddr nnn := BitVec.add_zero _

/-- An advance from an address that was fetched from does not wrap. -/
theorem add_le_of_fetchable {pc n : Word} (hpc : pc.toNat ≤ 0x0FFE) (hn : n.toNat ≤ 4) : (pc + n).toNat ≤ 0x0FFE + n.toNat := by
  rw [BitVec.toNat_add]; omega

/-- Where an instruction leaves PC (R23): where it was, past it, at a jump's target, or at the top return address. -/
inductive NextPc (s t : State) : Prop where
  | stay (h : t.pc = s.pc)
  | advance (n : Word) (hn : n.toNat ≤ 4) (h : t.pc = s.pc + n)
  | jump (nnn : Addr12) (b : Byte) (h : t.pc = zextAddr nnn + zextByte b)
  | ret (hpos : 0 < s.sp.val) (h : t.pc = s.stack[s.sp.val - 1]'(by omega))

theorem checked_nextPc (s : State) (i : Instr) (n : Nat) {done : State} (hd : done.pc = s.pc + 2) :
    NextPc s (s.checked i n done) := by
  obtain ⟨-, e⟩ | ⟨-, e⟩ := s.checked_cases i n done <;> rw [e]
  · exact .advance 2 (by decide) hd
  · exact .stay rfl

theorem exec_nextPc {i : Instr} {s t : State} (h : exec i s = .next t) : NextPc s t := by
  cases i
  case ret =>
    obtain ⟨hpos, e⟩ | ⟨-, e⟩ := execRet_cases s <;> cases e.symm.trans h
    · exact .ret hpos rfl
    · exact .stay rfl
  case call nnn =>
    obtain ⟨_, e⟩ | ⟨-, e⟩ := execCall_cases nnn s <;> cases e.symm.trans h
    · exact .jump nnn 0 (zextAddr_add_zero nnn).symm
    · exact .stay rfl
  case ldVxK x =>
    obtain ⟨k, -, e⟩ | ⟨-, e⟩ := execLdVxK_cases x s <;> cases e.symm.trans h
    · exact .advance 2 (by decide) rfl
    · exact .stay rfl
  all_goals cases h
  case jp nnn => exact .jump nnn 0 (zextAddr_add_zero nnn).symm
  case jpV0 nnn => exact .jump nnn _ rfl
  case seImm | sneImm | seReg | sneReg | skp | sknp => exact .advance (if _ then 4 else 2) (by split <;> decide) rfl
  case drw | ldB | stBlock | ldBlock => exact checked_nextPc s _ _ rfl
  all_goals exact .advance 2 (by decide) rfl

/-- The highest PC is a jump to 0xFFF + 0xFF (R24). -/
theorem exec_pc_le {i : Instr} {s t : State} (hs : Inv s) (hpc : s.pc.toNat ≤ 0x0FFE) (h : exec i s = .next t) :
    t.pc.toNat ≤ 0x10FE := by
  cases exec_nextPc h
  case stay e => rw [e]; omega
  case advance n hn e => rw [e]; have := add_le_of_fetchable hpc hn; omega
  case jump nnn b e =>
    have := nnn.isLt; have := b.isLt
    rw [e, zextAddr_add_zextByte_toNat]; omega
  case ret hpos e => rw [e]; exact (hs.returns _ _ (Nat.sub_lt hpos Nat.one_pos)).trans (by decide)

/-- An instruction that is no call and no return leaves the stack alone. -/
theorem exec_stack {i : Instr} {s t : State} (hi : Part.stack ∉ partsOf i) (h : exec i s = .next t) :
    t.sp = s.sp ∧ t.stack = s.stack := by
  obtain hc | ⟨_, _, rfl, -⟩ := exec_outcome h
  · exact Frame.stack hc hi
  · exact ⟨rfl, rfl⟩

/-- The return addresses on the stack are those before, but for the one a call pushes (R93). -/
theorem exec_returns_le {i : Instr} {s t : State} (hs : Inv s) (hpc : s.pc.toNat ≤ 0x0FFE) (h : exec i s = .next t) :
    ∀ k (hk : k < Config.stackDepth), k < t.sp.val → (t.stack[k]'hk).toNat ≤ 0x1000 := by
  intro k hk hlive
  cases i
  case ret =>
    obtain ⟨hpos, e⟩ | ⟨-, e⟩ := execRet_cases s <;> cases e.symm.trans h
    · exact hs.returns k hk (Nat.lt_of_lt_of_le hlive (Nat.sub_le _ 1))
    · exact hs.returns k hk hlive
  case call nnn =>
    obtain ⟨hroom, e⟩ | ⟨-, e⟩ := execCall_cases nnn s <;> cases e.symm.trans h
    · have hpush : (s.pc + 2).toNat ≤ 0x1000 := add_le_of_fetchable hpc (by decide)
      rw [Vector.getElem_set]
      split
      case isTrue => exact hpush
      case isFalse hne => exact hs.returns k hk (Nat.lt_of_le_of_ne (Nat.le_of_lt_succ hlive) (Ne.symm hne))
    · exact hs.returns k hk hlive
  all_goals
    obtain ⟨hsp, hstack⟩ := exec_stack (by simp [partsOf]) h
    simp only [hstack]
    exact hs.returns k hk (hsp ▸ hlive)

/-- An instruction that is no key wait leaves WAIT alone. -/
theorem exec_wait {i : Instr} {s t : State} (hi : Part.wait ∉ partsOf i) (h : exec i s = .next t) : t.wait = s.wait := by
  obtain hc | ⟨_, _, rfl, -⟩ := exec_outcome h
  · exact Frame.wait hc hi
  · rfl

theorem wait_mem_partsOf {i : Instr} (h : Part.wait ∈ partsOf i) : ∃ x, i = .ldVxK x := by
  cases i
  case ldVxK x => exact ⟨x, rfl⟩
  all_goals simp [partsOf] at h

/-- WAIT is set by a key wait that found no key, which is then still the instruction at PC; and while it was set before,
the instruction at PC was one (R152 (e)). -/
theorem exec_waiting {s t : State} {w : Word} (hs : Inv s) (hrun : s.running) (hw : fetch s = .ok w)
    (h : exec (decodeWord w) s = .next t) (hwait : t.wait = true) : t.running ∧ ∃ x, fetch t = .ok (encode (.ldVxK x)) := by
  have hkey : ∃ x, decodeWord w = .ldVxK x := by
    by_contra hno
    have hkeep := exec_wait (mt wait_mem_partsOf hno) h
    obtain ⟨-, x, hx⟩ := hs.waiting (hkeep.symm.trans hwait)
    obtain rfl : w = encode (.ldVxK x) := Except.ok.inj (hw.symm.trans hx)
    exact hno ⟨x, Laws.RoundTrip.ldVxK x rfl⟩
  obtain ⟨x, hx⟩ := hkey
  rw [hx] at h
  obtain ⟨k, -, e⟩ | ⟨-, e⟩ := execLdVxK_cases x s <;> cases e.symm.trans h
  · cases hwait
  · refine ⟨hrun, x, ?_⟩
    rw [← hx, encode_decodeWord]
    exact hw

theorem faultRecorded_of_running {s : State} (hrun : s.running) :
    s.faultRecorded ↔ s.fault.opcode = none ∧ s.fault.addr = none := by
  rw [State.faultRecorded, show s.fault.kind = .none from hrun]

/-- The record of a running block stays empty, or is the one the instruction's fault makes. -/
theorem exec_faultRecorded {i : Instr} {s t : State} (hs : Inv s) (hrun : s.running) (h : exec i s = .next t) :
    t.faultRecorded := by
  obtain hc | ⟨kind, addr, rfl, hf, haddr⟩ := exec_outcome h
  · rw [faultRecorded_of_running (hc.running_iff.mpr hrun), hc.fault]
    exact (faultRecorded_of_running hrun).mp hs.fault
  · obtain ⟨rfl, a, ha, hle⟩ | ⟨hne, ha⟩ := haddr
    · exact ⟨rfl, a, ha, hle⟩
    · cases kind
      case none => exact absurd rfl (faultOf_ne_none hf)
      case memRange => exact absurd rfl hne
      case fbRange => exact absurd hf (faultOf_ne_fbRange i)
      case stackOverflow | stackUnderflow => exact ⟨rfl, rfl, ha⟩

/-- Executing the instruction at PC keeps the invariant, part by part. -/
theorem Inv.executed {s t : State} {w : Word} (hs : Inv s) (hrun : s.running) (hw : fetch s = .ok w)
    (h : exec (decodeWord w) s = .next t) : Inv t where
  memory := exec_keeps_wf hs.memory h
  pc := exec_pc_le hs (fetch_eq_ok.mp hw).1 h
  returns := exec_returns_le hs (fetch_eq_ok.mp hw).1 h
  waiting := exec_waiting hs hrun hw h
  fault := exec_faultRecorded hs hrun h

/-! ### The obligations -/

/-- Settles O2: the reset state is the reset block over empty memory. -/
theorem resetSatisfiesTheInvariant : Obligations.ResetSatisfiesTheInvariant := inv_reset rfl .vx Env.initial

/-- Settles O3: by the outcome of the step, from the state that has taken the event. -/
theorem stepKeepsTheInvariant : Obligations.StepKeepsTheInvariant := fun s t hs h => by
  obtain ⟨u, hu, -, ho⟩ := step_outcome h
  have hinv : Inv u := hs.takesEvent hu
  cases ho
  case idle _ ht => exact ht ▸ hinv
  case executed p w hrun hw ht => exact Inv.executed (s := u.withPorts p) (hinv.setTimersEnv u.dt u.st _) hrun hw ht
  case fetchFault p _ hpc ht => exact ht ▸ Inv.fetchFault (s := u.withPorts p) (hinv.setTimersEnv u.dt u.st _) hpc
  case ticked _ ht => exact ht ▸ hinv.setTimersEnv _ _ _
  case reset rom _ hrom ht =>
    exact ht ▸ inv_reset (Memory.wf_writeBlock rom 0x200 rfl (by change 0x200 + _ ≤ 4096; omega)) _ _

end Sys2Proof.Machine
